-- ==== Sys2Proof/Word.lean ====
section
/-! DEFINITION. The value types of the datapath and of the host port: 32-bit words (rule R5), bytes, the 38-bit
transaction word (rule R71), the 5-bit port address (rule R50) and the two word arrays a block is made of.
Addition on words is `+` on `BitVec 32`, which is addition modulo 2^32 (rule R6). -/

namespace Sys2Proof

/-- A word: an unsigned 32-bit value, bits numbered 0 (least significant) to 31 (rule R5). -/
abbrev Word := BitVec 32

/-- One byte of a message or a digest (rules R51, R52). -/
abbrev Byte := BitVec 8

/-- One host transaction, `WE : ADDR : WDATA`, 38 bits (rule R71). -/
abbrev TxnWord := BitVec 38

/-- The word address of one of the 32 port locations (rule R50). -/
abbrev PortAddr := BitVec 5

/-- The sixteen words of one message block (rule R22). -/
abbrev MsgBlock := Vector Word 16

/-- The eight words of a hash value (rule R23). -/
abbrev HashState := Vector Word 8

end Sys2Proof
end

