-- ==== Sys2Proof/Syntax.lean ====
section
/-! DEFINITION. The instructions: one constructor per row of spec/opcode_table.json. An instruction of this block is one
host transaction (rule R70); the engine's round and fold steps have no encoding and are no instructions. -/

namespace Sys2Proof

/-- A host transaction with its operands taken apart (rule R73). The WDATA of a read is ignored and has no place
here (rule R71); the WDATA of a write is kept for every row, also where the row ignores it. -/
inductive Instr where
  /-- MSG_RD: read MSG[i] (rule R153). -/
  | msgRd (i : Fin 16)
  /-- MSG_WR: write d into MSG[i] (rule R152). -/
  | msgWr (i : Fin 16) (d : Word)
  /-- HASH_RD: read H[i] (rule R154). -/
  | hashRd (i : Fin 8)
  /-- HASH_WR: a write to H[i], refused with code 2 (rule R155). -/
  | hashWr (i : Fin 8) (d : Word)
  /-- CTRL_RD: reads 0 (rule R160). -/
  | ctrlRd
  /-- CTRL_WR: the commands CLRERR, INIT and NEXT (rule R156). -/
  | ctrlWr (d : Word)
  /-- STATUS_RD: read the status word (rule R161). -/
  | statusRd
  /-- STATUS_WR: refused with code 2 (rule R162). -/
  | statusWr (d : Word)
  /-- RSV_RD_LO: read of a reserved location 0x1A or 0x1B (rule R163). -/
  | rsvRdLo (addr : PortAddr)
  /-- RSV_WR_LO: write to a reserved location 0x1A or 0x1B, refused with code 3 (rule R164). -/
  | rsvWrLo (addr : PortAddr) (d : Word)
  /-- RSV_RD_HI: read of a reserved location 0x1C .. 0x1F (rule R163). -/
  | rsvRdHi (addr : PortAddr)
  /-- RSV_WR_HI: write to a reserved location 0x1C .. 0x1F, refused with code 3 (rule R164). -/
  | rsvWrHi (addr : PortAddr) (d : Word)
  deriving DecidableEq, Repr

/-- The instruction is a write transaction (WE = 1). -/
def Instr.isWrite : Instr → Bool
  | .msgRd _ => false
  | .msgWr _ _ => true
  | .hashRd _ => false
  | .hashWr _ _ => true
  | .ctrlRd => false
  | .ctrlWr _ => true
  | .statusRd => false
  | .statusWr _ => true
  | .rsvRdLo _ => false
  | .rsvWrLo _ _ => true
  | .rsvRdHi _ => false
  | .rsvWrHi _ _ => true

end Sys2Proof
end

