-- ==== Sys2Proof/WellFormed.lean ====
section
/-! DEFINITION. When an instruction's operands are ones its row can encode. The register indices are bounded by their
types; what is left to check is that the address of a reserved-location row lies in that row's range (rule R74). -/

namespace Sys2Proof

/-- The locations of rows RSV_RD_LO and RSV_WR_LO: 0x1A and 0x1B (rule R74). -/
def inReservedLo (addr : PortAddr) : Bool := decide (0x1A ≤ addr.toNat) && decide (addr.toNat ≤ 0x1B)

/-- The locations of rows RSV_RD_HI and RSV_WR_HI: 0x1C .. 0x1F (rule R74). -/
def inReservedHi (addr : PortAddr) : Bool := decide (0x1C ≤ addr.toNat)

/-- The instruction is one that a transaction word stands for (rules R72 and R74). -/
def Instr.wellFormed : Instr → Bool
  | .msgRd _ => true
  | .msgWr _ _ => true
  | .hashRd _ => true
  | .hashWr _ _ => true
  | .ctrlRd => true
  | .ctrlWr _ => true
  | .statusRd => true
  | .statusWr _ => true
  | .rsvRdLo addr => inReservedLo addr
  | .rsvWrLo addr _ => inReservedLo addr
  | .rsvRdHi addr => inReservedHi addr
  | .rsvWrHi addr _ => inReservedHi addr

end Sys2Proof
end

