-- ==== Sys2Proof/Decode.lean ====
section
/-! DEFINITION. The decoder of host transactions, total on every 38-bit word and rejecting by name, written from the mask
and match columns of rule R74; and after it the encoder, written from the WE, ADDR and WDATA columns of rules R71
and R72. -/

namespace Sys2Proof

/-- WE, bit 37: 1 is a write (rule R71). -/
def TxnWord.we (T : TxnWord) : Bool := T.getLsbD 37

/-- ADDR, bits 36:32 (rule R71). -/
def TxnWord.addr (T : TxnWord) : PortAddr := T.extractLsb' 32 5

/-- WDATA, bits 31:0 (rule R71). -/
def TxnWord.wdata (T : TxnWord) : Word := T.extractLsb' 0 32

/-- The MSG index `i = ADDR[3:0]` of a word whose ADDR is 0x00 .. 0x0F (rule R73). -/
def TxnWord.msgIndex (T : TxnWord) : Fin 16 := (T.extractLsb' 32 4).toFin

/-- The HASH index `i = ADDR[2:0]` of a word whose ADDR is 0x10 .. 0x17 (rule R73). -/
def TxnWord.hashIndex (T : TxnWord) : Fin 8 := (T.extractLsb' 32 3).toFin

/-- The rows of the opcode map (rule R74). -/
inductive RowName where
  | msgRd | msgWr | hashRd | hashWr | ctrlRd | ctrlWr | statusRd | statusWr | rsvRdLo | rsvWrLo | rsvRdHi | rsvWrHi
  deriving DecidableEq, Repr

/-- One row of the opcode map: a word T belongs to it exactly when `T & mask = fixed` (rule R74's "match"). -/
structure Row where
  name  : RowName
  mask  : TxnWord
  fixed : TxnWord
  deriving DecidableEq, Repr

/-- The opcode map of rule R74. -/
def opcodeRows : List Row :=
  [ ⟨.msgRd,    0x3000000000#38, 0x0000000000#38⟩,
    ⟨.msgWr,    0x3000000000#38, 0x2000000000#38⟩,
    ⟨.hashRd,   0x3800000000#38, 0x1000000000#38⟩,
    ⟨.hashWr,   0x3800000000#38, 0x3000000000#38⟩,
    ⟨.ctrlRd,   0x3F00000000#38, 0x1800000000#38⟩,
    ⟨.ctrlWr,   0x3F00000000#38, 0x3800000000#38⟩,
    ⟨.statusRd, 0x3F00000000#38, 0x1900000000#38⟩,
    ⟨.statusWr, 0x3F00000000#38, 0x3900000000#38⟩,
    ⟨.rsvRdLo,  0x3E00000000#38, 0x1A00000000#38⟩,
    ⟨.rsvWrLo,  0x3E00000000#38, 0x3A00000000#38⟩,
    ⟨.rsvRdHi,  0x3C00000000#38, 0x1C00000000#38⟩,
    ⟨.rsvWrHi,  0x3C00000000#38, 0x3C00000000#38⟩ ]

/-- T belongs to the row (rule R74). -/
def Row.covers (r : Row) (T : TxnWord) : Bool := T &&& r.mask == r.fixed

/-- The operands of a word that belongs to the named row (rule R73). -/
def RowName.operands (n : RowName) (T : TxnWord) : Instr :=
  match n with
  | .msgRd => .msgRd T.msgIndex
  | .msgWr => .msgWr T.msgIndex T.wdata
  | .hashRd => .hashRd T.hashIndex
  | .hashWr => .hashWr T.hashIndex T.wdata
  | .ctrlRd => .ctrlRd
  | .ctrlWr => .ctrlWr T.wdata
  | .statusRd => .statusRd
  | .statusWr => .statusWr T.wdata
  | .rsvRdLo => .rsvRdLo T.addr
  | .rsvWrLo => .rsvWrLo T.addr T.wdata
  | .rsvRdHi => .rsvRdHi T.addr
  | .rsvWrHi => .rsvWrHi T.addr T.wdata

/-- Why bits are no transaction. -/
inductive DecodeError where
  /-- A 38-bit word that no row covers. Rule R74 says there is none; kept so that the decoder is written from the rows. -/
  | noRow
  /-- A number of 2^38 or more: there is one format, of 38 bits (rule R76). -/
  | notATransactionWord
  deriving DecidableEq, Repr

/-- The decoder (rule R74): the row that covers the word, with its operands. -/
def decode (T : TxnWord) : Except DecodeError Instr :=
  match opcodeRows.find? (fun r => r.covers T) with
  | some r => .ok (r.name.operands T)
  | none => .error .noRow

/-- A transaction word made of its three fields (rule R71). -/
def mkTxn (we : Bool) (addr : PortAddr) (wdata : Word) : TxnWord := BitVec.ofBool we ++ addr ++ wdata

/-- The port address a transaction of this form names (rules R72 and R73). -/
def Instr.portAddr : Instr → PortAddr
  | .msgRd i => BitVec.ofNat 5 i.val
  | .msgWr i _ => BitVec.ofNat 5 i.val
  | .hashRd i => BitVec.ofNat 5 (0x10 + i.val)
  | .hashWr i _ => BitVec.ofNat 5 (0x10 + i.val)
  | .ctrlRd => 0x18#5
  | .ctrlWr _ => 0x18#5
  | .statusRd => 0x19#5
  | .statusWr _ => 0x19#5
  | .rsvRdLo addr => addr
  | .rsvWrLo addr _ => addr
  | .rsvRdHi addr => addr
  | .rsvWrHi addr _ => addr

/-- The write data of a transaction; the canonical encoding of a read sets WDATA to 0 (rule R71). DEDUCED, safe:
log entry 10. -/
def Instr.writeData : Instr → Word
  | .msgRd _ => 0#32
  | .msgWr _ d => d
  | .hashRd _ => 0#32
  | .hashWr _ d => d
  | .ctrlRd => 0#32
  | .ctrlWr d => d
  | .statusRd => 0#32
  | .statusWr d => d
  | .rsvRdLo _ => 0#32
  | .rsvWrLo _ d => d
  | .rsvRdHi _ => 0#32
  | .rsvWrHi _ d => d

/-- The encoder: the transaction word of a well-formed instruction (rules R71 and R72). -/
def encode (i : Instr) : TxnWord := mkTxn i.isWrite i.portAddr i.writeData

/-- A transaction word given as a number of `nbits` bits, bit 0 its least significant bit; the bits above `nbits` are
0. A number of 2^38 or more is no transaction word (rule R76). DESIGN CHOICE, safe: log entry 11. -/
def txnOfNumber (nbits w : Nat) : Except DecodeError TxnWord :=
  if w % 2 ^ nbits < 2 ^ 38 then .ok (BitVec.ofNat 38 (w % 2 ^ nbits)) else .error .notATransactionWord

/-- The decoder on any number, rejecting by name. -/
def decodeNumber (nbits w : Nat) : Except DecodeError Instr :=
  match txnOfNumber nbits w with
  | .ok T => decode T
  | .error e => .error e

/-- The instruction the decoder reads from a row of spec/opcode_table.json, numbered as the table numbers its bits. -/
def decodeTableWord (nbits w : Nat) : Option Instr :=
  match decodeNumber nbits w with
  | .ok i => some i
  | .error _ => none

end Sys2Proof
end

