-- ==== Sys2Proof/Config.lean ====
section
/-! DEFINITION. The OPEN parameters of rule R4: what the spec leaves to the platform. They are constants with no body, so
nothing can be proved of their values. No effect of a port transaction or of an engine step depends on one of them
(rule R4); `Config.coreBase` is read by the bus adapter alone (rule R54) and `Config.nCores` by the system of
several instances alone (rule R236). DEDUCED, safe: log entry 8. -/

namespace Sys2Proof

/-- `CORE_BASE / 4`: where the platform puts the port in the host's address space, counted in words, so that
`CORE_BASE` is 4-byte aligned (rules R4 and R54, decision D30). -/
opaque Config.coreBaseWords : Nat

/-- `CORE_BASE`, a byte address (rule R54): one for every instance of a system (DESIGN CHOICE, unsafe: log entry 17). -/
def Config.coreBase : Nat := 4 * Config.coreBaseWords

/-- `ENGINE_STEP_CYCLES`: clock cycles per engine step (rules R4 and R270, decision D20). No rule reads it. -/
opaque Config.engineStepCycles : Nat

/-- `N_CORES - 1`, so that `N_CORES` is at least 1 (rules R4 and R236, decision D23). -/
opaque Config.furtherCores : Nat

/-- `N_CORES`: how many independent instances of the block a system holds (rule R236). -/
def Config.nCores : Nat := Config.furtherCores + 1

end Sys2Proof
end

