-- ==== Sys2Proof/Machine/State.lean ====
section
/-! DEFINITION. The state of one instance of the block, as plain data: every element of the table of 10_state.md section 2
that has storage, and two fields of the model's own for what stands outside the block: the response on the host
port and the turns of the environment that are still to come. CTRL and STATUS have no storage (rules R24 and R25) and
K and IV are ROM (rules R33 and R34). The reasons a step can stop stand here too. -/

namespace Sys2Proof.Machine

/-- The phase of the engine (rule R26). -/
inductive Phase where
  | idle
  | run
  deriving DecidableEq, Repr

/-- The working variables a..h: each holds a word or NONE (rule R28). `none` is the spec's NONE, "no value".
DEDUCED, safe: log entry 15. -/
structure Work where
  a : Option Word
  b : Option Word
  c : Option Word
  d : Option Word
  e : Option Word
  f : Option Word
  g : Option Word
  h : Option Word
  deriving DecidableEq, Repr

/-- NONE in each of a..h (rule R28). -/
def Work.empty : Work := ⟨none, none, none, none, none, none, none, none⟩

/-- A host access on a byte-addressed platform bus, before the bus adapter (rule R54): its direction, byte address,
width in bytes and write data. -/
structure BusAccess where
  write    : Bool
  byteAddr : Nat
  bytes    : Nat
  data     : Word
  deriving DecidableEq, Repr

/-- One turn of the environment: who moves next, and with what. Turns of the host and of the engine interleave in any
order (rule R21), and reset may come between any two steps (rule R250). -/
inductive Turn where
  /-- The host performs one port transaction (rule R20). -/
  | host (txn : TxnWord)
  /-- The host performs one access on the platform's bus, which the adapter makes a port transaction (rule R54). -/
  | bus (access : BusAccess)
  /-- The engine takes a step, where it has one (rules R20 and R128). -/
  | engine
  /-- The reset input (rule R250). -/
  | reset
  deriving DecidableEq, Repr

/-- The state of one instance of the block. -/
structure State where
  /-- MSG[0..15], the message block registers (rule R22). -/
  msg     : MsgBlock
  /-- H[0..7], the hash state (rule R23). -/
  hash    : HashState
  /-- phase (rule R26). -/
  phase   : Phase
  /-- W[0..63], the message schedule, each a word or NONE (rule R27). -/
  w       : Vector (Option Word) 64
  /-- a..h, the working variables, each a word or NONE (rule R28). -/
  work    : Work
  /-- VALID (rule R29). -/
  valid   : Bool
  /-- t, the round counter, 7 bits (rule R30). -/
  t       : BitVec 7
  /-- ERR (rule R31). -/
  err     : Bool
  /-- ERRCODE, 4 bits (rule R32). -/
  errcode : BitVec 4
  /-- The model's own: RDATA, the response to the last host transaction, `none` where that was a write, which returns
  nothing (rule R71), or where there was none since reset. DESIGN CHOICE, unsafe: log entry 3. -/
  rdata   : Option Word
  /-- The model's own: the turns of the environment still to come, the next one first. DESIGN CHOICE, unsafe:
  log entries 1 and 2. -/
  agenda  : List Turn
  deriving DecidableEq, Repr

/-- Why the machine stops with a fault. -/
inductive Fault where
  /-- The engine would read an element of W that holds NONE. Raised by the round step. Safe: rule R11 asks a model to
  fault here, and no run from a state that satisfies rule R36 gets here. -/
  | noScheduleWord
  /-- The engine would read one of a..h while it holds NONE. Raised by the round and the fold step. Safe: rule R11 asks
  a model to fault here, and no run from a state that satisfies rule R36 gets here. -/
  | noWorkingValue
  /-- The state breaks the invariants of rule R36. Raised by every step that starts from such a state, and by the
  engine's dispatch where t is above 64. Safe: rule R227 asks a model that reaches such a state to fault rather than
  continue. -/
  | brokenInvariant
  deriving DecidableEq, Repr

/-- Why the model gives no meaning. -/
inductive Refusal where
  /-- An instruction whose meaning is not written yet. Raised by `exec` alone. Safe. -/
  | notModelled (mnemonic : String)
  /-- A transaction word that the decoder rejects. Raised by the host's turn. Safe: by rule R74 there is no such word. -/
  | undecodable
  /-- A bus access whose width is not 32 bits. Raised by the bus adapter. Safe: rule R54 asks a model to refuse it. -/
  | busWidth
  /-- A bus access that is not 4-byte aligned. Raised by the bus adapter. Safe: rule R54 asks a model to refuse it. -/
  | busMisaligned
  /-- A bus access outside the port's 32 locations. Raised by the bus adapter. Safe: decision D28 asks a model to refuse
  it. -/
  | busOutsidePort
  deriving DecidableEq, Repr

/-- The machine right after reset (rule R250). That nothing is yet on the agenda and no response given is a DESIGN CHOICE, unsafe:
log entries 3 and 16. -/
def State.reset : State where
  msg     := Vector.replicate 16 0#32
  hash    := IV
  phase   := .idle
  w       := Vector.replicate 64 none
  work    := Work.empty
  valid   := false
  t       := 0#7
  err     := false
  errcode := 0#4
  rdata   := none
  agenda  := []

end Sys2Proof.Machine
end

