-- ==== Sys2Proof/Machine/Operands.lean ====
section
/-! DEFINITION. The operand forms. Register indices and write data are taken from the transaction word by the decoder
(rule R73); here are the fields of a word written to CTRL (rules R24 and R73) and the words of the schedule and of
the working variables that the engine reads, where NONE is no operand (rule R11). -/

namespace Sys2Proof.Machine

/-- INIT, bit 0 of a word written to CTRL (rule R24). -/
def ctrlInit (d : Word) : Bool := d.getLsbD 0

/-- NEXT, bit 1 (rule R24). -/
def ctrlNext (d : Word) : Bool := d.getLsbD 1

/-- CLRERR, bit 2 (rule R24). -/
def ctrlClrerr (d : Word) : Bool := d.getLsbD 2

/-- The reserved bits 31:3 (rule R24). -/
def ctrlReserved (d : Word) : BitVec 29 := d.extractLsb' 3 29

/-- W[n]: `none` where it holds NONE (rule R27), or where there is no such element. -/
def scheduleWord (w : Vector (Option Word) 64) (n : Nat) : Option Word :=
  if h : n < 64 then w[n] else none

/-- The eight working variables as words. -/
structure Vars where
  a : Word
  b : Word
  c : Word
  d : Word
  e : Word
  f : Word
  g : Word
  h : Word
  deriving DecidableEq, Repr

/-- a..h where each holds a word; `none` where one of them holds NONE (rule R28). -/
def Work.words (x : Work) : Option Vars :=
  match x with
  | ⟨some a, some b, some c, some d, some e, some f, some g, some h⟩ => some ⟨a, b, c, d, e, f, g, h⟩
  | _ => none

/-- Eight words in a..h. -/
def Vars.store (v : Vars) : Work :=
  ⟨some v.a, some v.b, some v.c, some v.d, some v.e, some v.f, some v.g, some v.h⟩

end Sys2Proof.Machine
end

