-- ==== Sys2Proof/Machine/Schedule.lean ====
section
/-! DEFINITION. The message schedule generator (41_schedule.md): the rotations and shifts of rules R7 and R8, the mixing
functions σ0 and σ1, the pure schedule function, the schedule load that NEXT performs and the expansion that round
step t performs. -/

namespace Sys2Proof.Machine

/-- `rotr(x, n)` for n in 0..31 (rule R7). -/
def rotr (x : Word) (n : Nat) : Word := (x >>> n) ||| (x <<< (32 - n))

/-- `shr(x, n)` for n in 0..31 (rule R8). -/
def shr (x : Word) (n : Nat) : Word := x >>> n

/-- σ0 (rule R102). -/
def smallSigma0 (x : Word) : Word := rotr x 7 ^^^ rotr x 18 ^^^ shr x 3

/-- σ1 (rule R104). -/
def smallSigma1 (x : Word) : Word := rotr x 17 ^^^ rotr x 19 ^^^ shr x 10

/-- The schedule word that four earlier ones give: `σ1(W[t-2]) + W[t-7] + σ0(W[t-15]) + W[t-16]` (rules R100, R103). -/
def expandWord (w2 w7 w15 w16 : Word) : Word := smallSigma1 w2 + w7 + smallSigma0 w15 + w16

/-- The schedule word that follows the words `ws`, of which there are at least 16. -/
def nextScheduleWord (ws : List Word) : Word :=
  expandWord (ws.getD (ws.length - 2) 0#32) (ws.getD (ws.length - 7) 0#32) (ws.getD (ws.length - 15) 0#32)
    (ws.getD (ws.length - 16) 0#32)

/-- `ws` with `n` more schedule words after it. -/
def growSchedule : Nat → List Word → List Word
  | 0, ws => ws
  | n + 1, ws => growSchedule n (ws ++ [nextScheduleWord ws])

/-- `Sched(M)`, the pure schedule function (rule R100): 64 words. -/
def sched (M : MsgBlock) : List Word := growSchedule 48 M.toList

/-- `Sched(M)[t]` for t in 0..63 (rule R100). -/
def schedAt (M : MsgBlock) (t : Nat) : Word := (sched M).getD t 0#32

/-- SCHED_LOAD (rule R101): `W[0..15] <- MSG[0..15]; W[16..63] <- NONE`. -/
def loadSchedule (msg : MsgBlock) : Vector (Option Word) 64 :=
  Vector.ofFn fun i : Fin 64 => if h : i.val < 16 then some (msg[i.val]'h) else none

/-- The value Wt of SCHED_EXPAND (rule R103), from the state before the step; `none` where an operand holds NONE. -/
def expandedWord (w : Vector (Option Word) 64) (t : Nat) : Option Word :=
  if t < 16 then scheduleWord w t
  else
    match scheduleWord w (t - 2), scheduleWord w (t - 7), scheduleWord w (t - 15), scheduleWord w (t - 16) with
    | some w2, some w7, some w15, some w16 => some (expandWord w2 w7 w15 w16)
    | _, _, _, _ => none

/-- The write of SCHED_EXPAND (rule R103): `W[t] <- Wt` where t is 16 or more. -/
def storeExpanded (w : Vector (Option Word) 64) (t : Fin 64) (wt : Word) : Vector (Option Word) 64 :=
  if t.val < 16 then w else w.set t (some wt)

end Sys2Proof.Machine
end

