-- ==== Sys2Proof/Machine/Compression.lean ====
section
/-! DEFINITION. The compression round engine (42_compression.md): the four round functions, the round and the fold as pure
functions of eight words, the whole block function, and the engine's steps over State. -/

namespace Sys2Proof.Machine

/-- Σ0 (rule R120). -/
def bigSigma0 (x : Word) : Word := rotr x 2 ^^^ rotr x 13 ^^^ rotr x 22

/-- Σ1 (rule R121). -/
def bigSigma1 (x : Word) : Word := rotr x 6 ^^^ rotr x 11 ^^^ rotr x 25

/-- Ch, "choice" (rule R122). -/
def choose (e f g : Word) : Word := (e &&& f) ^^^ (~~~e &&& g)

/-- Maj, "majority" (rule R123). -/
def majority (a b c : Word) : Word := (a &&& b) ^^^ (a &&& c) ^^^ (b &&& c)

/-- T1 of a round (rule R130). -/
def Vars.temp1 (v : Vars) (k wt : Word) : Word := v.h + bigSigma1 v.e + choose v.e v.f v.g + k + wt

/-- T2 of a round (rule R130). -/
def Vars.temp2 (v : Vars) : Word := bigSigma0 v.a + majority v.a v.b v.c

/-- What one round makes of the working variables, every read from the values before it (rule R130). -/
def Vars.round (v : Vars) (k wt : Word) : Vars where
  a := v.temp1 k wt + v.temp2
  b := v.a
  c := v.b
  d := v.c
  e := v.d + v.temp1 k wt
  f := v.e
  g := v.f
  h := v.g

/-- The working variables seeded from H (rule R129). -/
def seedVars (H : HashState) : Vars := ⟨H[0], H[1], H[2], H[3], H[4], H[5], H[6], H[7]⟩

/-- H after the fold: the working variables added in, word by word (rule R131). -/
def foldHash (H : HashState) (v : Vars) : HashState :=
  #v[H[0] + v.a, H[1] + v.b, H[2] + v.c, H[3] + v.d, H[4] + v.e, H[5] + v.f, H[6] + v.g, H[7] + v.h]

/-- The working variables after the first rounds of a block, one round for each pair (K[t], Wt), in order. -/
def runRounds : Vars → List (Word × Word) → Vars
  | v, [] => v
  | v, kw :: rest => runRounds (v.round kw.1 kw.2) rest

/-- The pairs (K[t], Sched(M)[t]) for t = 0..63, in order. -/
def roundInputs (M : MsgBlock) : List (Word × Word) := K.toList.zip (sched M)

/-- The working variables of a block M started from H, after its first n rounds. -/
def varsAfter (H : HashState) (M : MsgBlock) (n : Nat) : Vars := runRounds (seedVars H) ((roundInputs M).take n)

/-- `Compress(H, M)`, the pure block function (rule R132). -/
def compress (H : HashState) (M : MsgBlock) : HashState := foldHash H (varsAfter H M 64)

/-- The hash value after the blocks `Bs`, compressed in order from H (rules R197 and R198). -/
def compressAll (H : HashState) (Bs : List MsgBlock) : HashState := Bs.foldl compress H

/-- NEXT (rules R101, R129 and R159): schedule load and seeding, `t <- 0; phase <- RUN`. -/
def startBlock (s : State) : State :=
  { s with w := loadSchedule s.msg, work := (seedVars s.hash).store, t := 0#7, phase := .run }

/-- ROUND, the engine step with t in 0..63 (rule R130). -/
def engineRound (t : Fin 64) (s : State) : Host.Outcome State Fault Refusal :=
  match s.work.words with
  | none => .fault .noWorkingValue
  | some v =>
    match expandedWord s.w t.val with
    | none => .fault .noScheduleWord
    | some wt =>
      .next { s with w := storeExpanded s.w t wt, work := (v.round K[t] wt).store, t := s.t + 1#7 }

/-- FOLD, the engine step with t = 64 (rule R131). -/
def engineFold (s : State) : Host.Outcome State Fault Refusal :=
  match s.work.words with
  | none => .fault .noWorkingValue
  | some v =>
    .next { s with hash := foldHash s.hash v, work := Work.empty, w := Vector.replicate 64 none, t := 0#7, phase := .idle, valid := true }

/-- ENGINE_STEP (rule R128): while phase = RUN, ROUND for t up to 63 and FOLD for t = 64. While phase = IDLE the engine has
no step, and a turn offered to it passes without effect (DESIGN CHOICE, unsafe: log entry 4). -/
def engineStep (s : State) : Host.Outcome State Fault Refusal :=
  match s.phase with
  | .idle => .next s
  | .run =>
    if h : s.t.toNat < 64 then engineRound ⟨s.t.toNat, h⟩ s
    else if s.t.toNat = 64 then engineFold s
    else .fault .brokenInvariant

end Sys2Proof.Machine
end

