-- ==== Sys2Proof/Machine/Ops.lean ====
section
/-! DEFINITION. The operations that the meanings share: recording an error and clearing it (this block's only form of an
exception and of the return from one, rules R220, R230 and R231), answering a read, the gate of every write, and the
writes to MSG and H. -/

namespace Sys2Proof.Machine

/-- The errors the block can record (60_exceptions.md section 1). -/
inductive ErrorName where
  /-- Any write while phase = RUN (rule R222). -/
  | busyWrite
  /-- A write to a read-only location while idle (rule R223). -/
  | roWrite
  /-- A write to a reserved location while idle (rule R224). -/
  | rsvWrite
  /-- A CTRL write with a reserved bit set while idle (rule R225). -/
  | ctrlRsv
  deriving DecidableEq, Repr

/-- The value ERRCODE takes for an error (60_exceptions.md section 1). -/
def ErrorName.code : ErrorName → BitVec 4
  | .busyWrite => 1#4
  | .roWrite => 2#4
  | .rsvWrite => 3#4
  | .ctrlRsv => 4#4

/-- `record_error` (rule R220): the first error since the last clear is kept. -/
def recordError (e : ErrorName) (s : State) : State :=
  if s.err then s else { s with err := true, errcode := e.code }

/-- CLRERR (rule R157): the recorded error is forgotten. -/
def clearError (s : State) : State := { s with err := false, errcode := 0#4 }

/-- The host gets RDATA; a read changes nothing in the block (rules R71 and R150). -/
def respond (v : Word) (s : State) : State := { s with rdata := some v }

/-- A write returns nothing (rule R71). -/
def respondNothing (s : State) : State := { s with rdata := none }

/-- A read transaction: accepted in every phase (rule R150). -/
def portRead (v : Word) (s : State) : Host.Outcome State Fault Refusal := .next (respond v s)

/-- The common gate of every write (rule R151): while the engine runs the write is refused and only recorded; else the
row's own rule is applied. -/
def gate (rule : State → State) (s : State) : State :=
  match s.phase with
  | .run => recordError .busyWrite s
  | .idle => rule s

/-- A write transaction (rule R151). -/
def portWrite (rule : State → State) (s : State) : Host.Outcome State Fault Refusal :=
  .next (gate rule (respondNothing s))

/-- `MSG[i] <- d` (rule R152). -/
def setMsg (i : Fin 16) (d : Word) (s : State) : State := { s with msg := s.msg.set i d }

/-- INIT (rule R158): `H <- IV; VALID <- 0`. -/
def initHash (s : State) : State := { s with hash := IV, valid := false }

/-- RESET (rule R250): every element of the block at its reset value, whatever it was doing. The turns to come are the
environment's and stay. -/
def resetBlock (s : State) : State := { State.reset with agenda := s.agenda }

end Sys2Proof.Machine
end

