-- ==== Sys2Proof/Machine/Command.lean ====
section
/-! DEFINITION. The meanings of CTRL_RD and CTRL_WR (43_host_port.md section 4). -/

namespace Sys2Proof.Machine

/-- What an accepted CTRL write does (rule R156): with a reserved bit set it only records CTRL_RSV; else the commands
whose bits are 1, in the order CLRERR, INIT, NEXT, so that NEXT seeds from IV where INIT is set too. -/
def command (d : Word) (s : State) : State :=
  if ctrlReserved d ≠ 0#29 then recordError .ctrlRsv s
  else
    let s₁ := if ctrlClrerr d then clearError s else s
    let s₂ := if ctrlInit d then initHash s₁ else s₁
    if ctrlNext d then startBlock s₂ else s₂

/-- CTRL_RD (rule R160): RDATA = 0. -/
def execCtrlRd (s : State) : Host.Outcome State Fault Refusal := portRead 0#32 s

/-- CTRL_WR (rule R156). -/
def execCtrlWr (d : Word) (s : State) : Host.Outcome State Fault Refusal := portWrite (command d) s

end Sys2Proof.Machine
end

