-- ==== Sys2Proof/Machine/HashPort.lean ====
section
/-! DEFINITION. The meanings of HASH_RD and HASH_WR (43_host_port.md section 3). -/

namespace Sys2Proof.Machine

/-- HASH_RD (rule R154): RDATA = H[i]. -/
def execHashRd (i : Fin 8) (s : State) : Host.Outcome State Fault Refusal := portRead s.hash[i] s

/-- HASH_WR (rule R155): the location is read-only, RO_WRITE is recorded; index and data are ignored. -/
def execHashWr (_i : Fin 8) (_d : Word) (s : State) : Host.Outcome State Fault Refusal :=
  portWrite (recordError .roWrite) s

end Sys2Proof.Machine
end

