-- ==== Sys2Proof/Machine/Message.lean ====
section
/-! DEFINITION. The meanings of MSG_RD and MSG_WR (43_host_port.md section 2). -/

namespace Sys2Proof.Machine

/-- MSG_RD (rule R153): RDATA = MSG[i]. -/
def execMsgRd (i : Fin 16) (s : State) : Host.Outcome State Fault Refusal := portRead s.msg[i] s

/-- MSG_WR (rule R152): MSG[i] <- d. -/
def execMsgWr (i : Fin 16) (d : Word) (s : State) : Host.Outcome State Fault Refusal := portWrite (setMsg i d) s

end Sys2Proof.Machine
end

