-- ==== Sys2Proof/Machine/Reserved.lean ====
section
/-! DEFINITION. The meanings of the four rows of reserved locations (43_host_port.md section 6). -/

namespace Sys2Proof.Machine

/-- RSV_RD_LO (rule R163): RDATA = 0. -/
def execRsvRdLo (_addr : PortAddr) (s : State) : Host.Outcome State Fault Refusal := portRead 0#32 s

/-- RSV_WR_LO (rule R164): RSV_WRITE is recorded; the data is ignored. -/
def execRsvWrLo (_addr : PortAddr) (_d : Word) (s : State) : Host.Outcome State Fault Refusal :=
  portWrite (recordError .rsvWrite) s

/-- RSV_RD_HI (rule R163): RDATA = 0. -/
def execRsvRdHi (_addr : PortAddr) (s : State) : Host.Outcome State Fault Refusal := portRead 0#32 s

/-- RSV_WR_HI (rule R164): RSV_WRITE is recorded; the data is ignored. -/
def execRsvWrHi (_addr : PortAddr) (_d : Word) (s : State) : Host.Outcome State Fault Refusal :=
  portWrite (recordError .rsvWrite) s

end Sys2Proof.Machine
end

