-- ==== Sys2Proof/Machine/Flags.lean ====
section
/-! DEFINITION. The STATUS fields and the STATUS word (rule R25). STATUS has no storage: it is a view of phase, VALID, ERR,
ERRCODE and t at the moment of the read. -/

namespace Sys2Proof.Machine

/-- BUSY: phase = RUN (rule R25). -/
def busy (s : State) : Bool :=
  match s.phase with
  | .run => true
  | .idle => false

/-- ROUND: t while the engine runs, else 0 (rule R25). -/
def roundField (s : State) : BitVec 7 :=
  match s.phase with
  | .run => s.t
  | .idle => 0#7

/-- The STATUS word (rule R25): bits 31:15 zero, ROUND at 14:8, ERRCODE at 7:4, bit 3 zero, ERR, VALID and BUSY at
2, 1 and 0. -/
def statusWord (s : State) : Word :=
  0#17 ++ roundField s ++ s.errcode ++ 0#1 ++ BitVec.ofBool s.err ++ BitVec.ofBool s.valid ++ BitVec.ofBool (busy s)

end Sys2Proof.Machine
end

