-- ==== Sys2Proof/Machine/StatusPort.lean ====
section
/-! DEFINITION. The meanings of STATUS_RD and STATUS_WR (43_host_port.md section 5). -/

namespace Sys2Proof.Machine

/-- STATUS_RD (rule R161): RDATA = STATUS, as assembled at the moment of the read. -/
def execStatusRd (s : State) : Host.Outcome State Fault Refusal := portRead (statusWord s) s

/-- STATUS_WR (rule R162): the location is read-only, RO_WRITE is recorded; the data is ignored. -/
def execStatusWr (_d : Word) (s : State) : Host.Outcome State Fault Refusal := portWrite (recordError .roWrite) s

end Sys2Proof.Machine
end

