-- ==== Sys2Proof/Machine/Dispatch.lean ====
section
/-! DEFINITION. One arm per host transaction, each one direct call of that row's meaning. -/

namespace Sys2Proof.Machine

def exec (i : Instr) (s : State) : Host.Outcome State Fault Refusal :=
  match i with
  | .msgRd k => Sys2Proof.Machine.execMsgRd k s
  | .msgWr k d => Sys2Proof.Machine.execMsgWr k d s
  | .hashRd k => Sys2Proof.Machine.execHashRd k s
  | .hashWr k d => Sys2Proof.Machine.execHashWr k d s
  | .ctrlRd => Sys2Proof.Machine.execCtrlRd s
  | .ctrlWr d => Sys2Proof.Machine.execCtrlWr d s
  | .statusRd => Sys2Proof.Machine.execStatusRd s
  | .statusWr d => Sys2Proof.Machine.execStatusWr d s
  | .rsvRdLo addr => Sys2Proof.Machine.execRsvRdLo addr s
  | .rsvWrLo addr d => Sys2Proof.Machine.execRsvWrLo addr d s
  | .rsvRdHi addr => Sys2Proof.Machine.execRsvRdHi addr s
  | .rsvWrHi addr d => Sys2Proof.Machine.execRsvWrHi addr d s

end Sys2Proof.Machine
end

