-- ==== Sys2Proof/Machine/Invariant.lean ====
section
/-! DEFINITION. The invariants of rule R36 as a check on states. Rule R36 says every reachable state satisfies them, and rule
R227 that a model which reaches a state that does not must fault rather than continue. -/

namespace Sys2Proof.Machine

/-- What rule R36 says of a state with phase = IDLE: t = 0, and W and a..h hold NONE. -/
def idleStorageOk (s : State) : Bool :=
  decide (s.t = 0#7) && decide (∀ i : Fin 64, s.w[i] = none) && decide (s.work = Work.empty)

/-- What rule R36 says of a state with phase = RUN: t is at most 64, a..h are words, and W[i] is a word exactly for i
below the greater of 16 and t. -/
def runStorageOk (s : State) : Bool :=
  decide (s.t.toNat ≤ 64) && s.work.words.isSome &&
    decide (∀ i : Fin 64, s.w[i].isSome = decide (i.val < max 16 s.t.toNat))

/-- What rule R36 says of ERR and ERRCODE. -/
def errorFieldsOk (s : State) : Bool :=
  (s.err == decide (s.errcode ≠ 0#4)) && decide (s.errcode.toNat ≤ 4)

/-- The invariants of rule R36. -/
def consistent (s : State) : Bool :=
  errorFieldsOk s &&
    match s.phase with
    | .idle => idleStorageOk s
    | .run => runStorageOk s

end Sys2Proof.Machine
end

