-- ==== Sys2Proof/Machine/Turns.lean ====
section
/-! DEFINITION. How the machine moves (rules R20 and R21): one turn of the environment's agenda, or, where nothing is on it, the
engine's own step. The bus adapter of rule R54 and the placing of a transaction at the head of the agenda stand here. -/

namespace Sys2Proof.Machine

/-- The host's turn: the transaction is decoded and runs, as one atomic step (rules R55 and R74). -/
def hostTurn (T : TxnWord) (s : State) : Host.Outcome State Fault Refusal :=
  match decode T with
  | .ok i => exec i s
  | .error _ => .refused .undecodable

/-- The bus adapter: location ADDR is at byte address CORE_BASE + 4·ADDR, and every access that is not a whole, aligned
word inside the port is refused (rule R54, decisions D2, D28 and D30). DESIGN CHOICE, safe: log entry 7. -/
def busTransaction (a : BusAccess) : Except Refusal TxnWord :=
  if a.bytes ≠ 4 then .error .busWidth
  else if a.byteAddr % 4 ≠ 0 then .error .busMisaligned
  else if a.byteAddr < Config.coreBase ∨ Config.coreBase + 128 ≤ a.byteAddr then .error .busOutsidePort
  else .ok (mkTxn a.write (BitVec.ofNat 5 ((a.byteAddr - Config.coreBase) / 4)) a.data)

/-- A host access on the platform's bus (rule R54). -/
def busTurn (a : BusAccess) (s : State) : Host.Outcome State Fault Refusal :=
  match busTransaction a with
  | .ok T => hostTurn T s
  | .error r => .refused r

/-- One turn, from a state whose agenda no longer holds it. -/
def takeTurn (x : Turn) (s : State) : Host.Outcome State Fault Refusal :=
  match x with
  | .host T => hostTurn T s
  | .bus a => busTurn a s
  | .engine => engineStep s
  | .reset => .next (resetBlock s)

/-- One step of the machine. A state that breaks rule R36 faults (rule R227). Else the next turn of the agenda is taken;
where the agenda is empty the engine goes on where it has a step (the fairness of rule R21), and nothing changes
where it has none (rule R238). DESIGN CHOICE, unsafe: log entries 1, 2 and 4. DEDUCED, safe: log entry 5. -/
def advance (s : State) : Host.Outcome State Fault Refusal :=
  if consistent s then
    match s.agenda with
    | [] => engineStep s
    | x :: rest => takeTurn x { s with agenda := rest }
  else .fault .brokenInvariant

/-- The transaction given as a number, placed as the environment's next turn. A number that is no transaction word
places nothing. -/
def placeTransaction (nbits w : Nat) (s : State) : State :=
  match txnOfNumber nbits w with
  | .ok T => { s with agenda := .host T :: s.agenda }
  | .error _ => s

end Sys2Proof.Machine
end

