-- ==== Sys2Proof/Machine/Step.lean ====
section
/-! DEFINITION. The machine's step, and the placing of the next host transaction. -/

namespace Sys2Proof.Machine

/-- One step of the machine (rules R20 and R21). -/
def step (s : State) : Host.Outcome State Fault Refusal := Sys2Proof.Machine.advance s

/-- The state in which the host issues the given transaction next. The block fetches nothing (rule R63): its transactions
come from the host, so the transaction is placed at the head of the agenda. DESIGN CHOICE, unsafe: log
entry 2. -/
def State.withFetchWord (s : State) (nbits w : Nat) : State := Sys2Proof.Machine.placeTransaction nbits w s

end Sys2Proof.Machine
end

