-- ==== Sys2Proof/Machine/Assembler.lean ====
section
/-! DEFINITION. The assembler's notation for host programs (rule R77) and its pseudo-instructions (rule R78), as syntax
trees, with the transaction words they stand for. -/

namespace Sys2Proof.Machine

/-- `<reg>` of rule R77. -/
inductive Reg where
  | msg (i : Fin 16)
  | hash (i : Fin 8)
  | ctrl
  | status
  | raw (addr : PortAddr)
  deriving DecidableEq, Repr

/-- The location a register names (rule R77). -/
def Reg.portAddr : Reg → PortAddr
  | .msg i => BitVec.ofNat 5 i.val
  | .hash i => BitVec.ofNat 5 (0x10 + i.val)
  | .ctrl => 0x18#5
  | .status => 0x19#5
  | .raw addr => addr

/-- One line of a host program (rule R77). -/
inductive AsmLine where
  | wr (r : Reg) (imm : Word)
  | rd (r : Reg)
  deriving DecidableEq, Repr

/-- The transaction word of a line: a write carries its immediate, a read has WDATA = 0 (rules R71 and R77). -/
def AsmLine.word : AsmLine → TxnWord
  | .wr r imm => mkTxn true r.portAddr imm
  | .rd r => mkTxn false r.portAddr 0#32

/-- The pseudo-instructions of rule R78. `poll` is one iteration of `wait`, which is control flow of the host. -/
inductive Pseudo where
  | init
  | next
  | initNext
  | clrerr
  | poll
  | load (block : MsgBlock)
  | rdhash
  deriving DecidableEq, Repr

/-- The expansion of a pseudo-instruction (rule R78). -/
def Pseudo.expand : Pseudo → List AsmLine
  | .init => [.wr .ctrl 1#32]
  | .next => [.wr .ctrl 2#32]
  | .initNext => [.wr .ctrl 3#32]
  | .clrerr => [.wr .ctrl 4#32]
  | .poll => [.rd .status]
  | .load block => List.ofFn fun i : Fin 16 => .wr (.msg i) block[i]
  | .rdhash => List.ofFn fun i : Fin 8 => .rd (.hash i)

/-- The transaction words of a pseudo-instruction (rule R78). -/
def Pseudo.words (p : Pseudo) : List TxnWord := p.expand.map AsmLine.word

end Sys2Proof.Machine
end

