-- ==== Sys2Proof/Machine/HostProtocol.lean ====
section
/-! DEFINITION. The host's duties (44_host_protocol.md and rules R51 and R52). The block performs none of them (rule R3); they
are functions outside the step, in whose terms a claim that the block computes a digest is stated. DESIGN CHOICE, unsafe:
log entry 12. -/

namespace Sys2Proof.Machine

/-- Four bytes as a big-endian word (rule R51). -/
def packWord (b0 b1 b2 b3 : Byte) : Word := b0 ++ b1 ++ b2 ++ b3

/-- Byte k of a sequence, 0 past its end. -/
def byteAt (bytes : List Byte) (k : Nat) : Byte := bytes.getD k 0#8

/-- The 16 words of the block that starts at byte 64·k of a sequence (rule R51). -/
def packBlock (bytes : List Byte) (k : Nat) : MsgBlock :=
  Vector.ofFn fun i : Fin 16 =>
    packWord (byteAt bytes (64 * k + 4 * i.val)) (byteAt bytes (64 * k + 4 * i.val + 1))
      (byteAt bytes (64 * k + 4 * i.val + 2)) (byteAt bytes (64 * k + 4 * i.val + 3))

/-- The bytes of a word, most significant first (rule R52). -/
def wordBytes (x : Word) : List Byte :=
  [x.extractLsb' 24 8, x.extractLsb' 16 8, x.extractLsb' 8 8, x.extractLsb' 0 8]

/-- The digest bytes of a hash value, big-endian per word, words in order (rule R52). -/
def digestBytes (H : HashState) : List Byte :=
  wordBytes H[0] ++ wordBytes H[1] ++ wordBytes H[2] ++ wordBytes H[3] ++
    wordBytes H[4] ++ wordBytes H[5] ++ wordBytes H[6] ++ wordBytes H[7]

/-- The hash value whose digest bytes these are (rule R52's "deserialize"). -/
def hashOfBytes (bytes : List Byte) : HashState :=
  Vector.ofFn fun i : Fin 8 =>
    packWord (byteAt bytes (4 * i.val)) (byteAt bytes (4 * i.val + 1)) (byteAt bytes (4 * i.val + 2))
      (byteAt bytes (4 * i.val + 3))

/-- N, the number of blocks of an input of L bytes (rule R191). -/
def blockCount (L : Nat) : Nat := (L + 72) / 64

/-- How many zero bytes stand between the terminator and the length field (rule R190). -/
def zeroCount (L : Nat) : Nat := 64 * blockCount L - L - 9

/-- The 8-byte length field: L·8 as a 64-bit big-endian integer (rule R192). -/
def lengthField (L : Nat) : List Byte :=
  (List.range 8).map fun j => (BitVec.ofNat 64 (L * 8)).extractLsb' (56 - 8 * j) 8

/-- The framed message of an input (rules R190 and R193). -/
def frame (input : List Byte) : List Byte :=
  input ++ [0x80#8] ++ List.replicate (zeroCount input.length) 0#8 ++ lengthField input.length

/-- The host frames only inputs of fewer than 2^61 bytes (rule R196); for a longer one there is no framed message, and so no
blocks and no digest (U1 of 93_implementation_defined.md). -/
def frameInput (input : List Byte) : Option (List Byte) :=
  if input.length < 2 ^ 61 then some (frame input) else none

/-- The blocks of a framed input, in input order (rules R51 and R198). -/
def blocksOf (input : List Byte) : Option (List MsgBlock) :=
  (frameInput input).map fun message => (List.range (blockCount input.length)).map fun k => packBlock message k

/-- The digest of an input: its blocks compressed in order from IV, serialized (rules R197 and R52). -/
def digest (input : List Byte) : Option (List Byte) :=
  (blocksOf input).map fun blocks => digestBytes (compressAll IV blocks)

/-- A lowercase hexadecimal digit (rule R199). -/
def hexDigit (n : BitVec 4) : Char := "0123456789abcdef".toList.getD n.toNat '0'

/-- Bytes as lowercase hexadecimal text, two digits a byte, most significant nibble first (rule R199). -/
def hexText (bytes : List Byte) : List Char :=
  bytes.flatMap fun b => [hexDigit (b.extractLsb' 4 4), hexDigit (b.extractLsb' 0 4)]

end Sys2Proof.Machine
end

