-- ==== Sys2Proof/Machine/HostAgent.lean ====
section
/-! DEFINITION. The host as an agent that acts on what it reads (rules R78, R197 and R198): a program of port transactions and
waits, run beside the block under a schedule that says who moves next. A wait is a loop of STATUS reads that ends at the
first one that returns BUSY = 0, so that no later line of the program is issued before the host has seen it. DESIGN CHOICE,
unsafe: log entry 18. -/

namespace Sys2Proof.Machine

/-- A line of a host program: one transaction (rule R77), or the `wait` of rule R78, which is control flow of the host. -/
inductive HostLine where
  | txn (line : AsmLine)
  | wait
  deriving DecidableEq, Repr

/-- The host beside the block: the block, the lines still to do, and the RDATA of the read lines done, in order. -/
structure Session where
  block   : State
  program : List HostLine
  answers : List Word
  deriving DecidableEq, Repr

/-- A program about to run on a block. -/
def Session.start (s : State) (program : List HostLine) : Session := ⟨s, program, []⟩

/-- Who moves next (rule R21). -/
inductive Mover where
  | host
  | engine
  deriving DecidableEq, Repr

/-- One turn, given to the block's own step. -/
def giveTurn (x : Turn) (s : State) : Host.Outcome State Fault Refusal := step { s with agenda := [x] }

/-- A STATUS read returned BUSY = 0 (rules R25 and R78). -/
def seenIdle (answer : Option Word) : Bool :=
  match answer with
  | some v => !v.getLsbD 0
  | none => false

/-- The transaction a line issues; a `wait` issues its next STATUS read (rules R77 and R78). -/
def HostLine.word : HostLine → TxnWord
  | .txn line => line.word
  | .wait => (AsmLine.rd .status).word

/-- The host after the first line of its program was issued and the block went to s. A `wait` stays until it has seen
BUSY = 0; the answer to a read is kept. -/
def HostLine.done (line : HostLine) (rest : List HostLine) (s : State) (x : Session) : Session :=
  match line with
  | .txn _ => ⟨s, rest, x.answers ++ s.rdata.toList⟩
  | .wait => ⟨s, if seenIdle s.rdata then rest else .wait :: rest, x.answers⟩

/-- One move: a turn for the engine, or the first line of the host's program. A host whose program is done does nothing. -/
def Session.move (m : Mover) (x : Session) : Host.Outcome Session Fault Refusal :=
  match m, x.program with
  | .engine, _ =>
    match giveTurn .engine x.block with
    | .next s => .next { x with block := s }
    | .fault r => .fault r
    | .refused r => .refused r
  | .host, [] => .next x
  | .host, line :: rest =>
    match giveTurn (.host line.word) x.block with
    | .next s => .next (line.done rest s x)
    | .fault r => .fault r
    | .refused r => .refused r

/-- The moves of a schedule, one after another. -/
def Session.run : List Mover → Session → Host.Outcome Session Fault Refusal
  | [], x => .next x
  | m :: schedule, x =>
    match x.move m with
    | .next y => Session.run schedule y
    | .fault r => .fault r
    | .refused r => .refused r

/-- The lines of a pseudo-instruction (rule R78). -/
def Pseudo.lines (p : Pseudo) : List HostLine := p.expand.map HostLine.txn

/-- One block (rule R197, step 3): load it, start it with `next` or with `init_next`, wait. -/
def blockLines (start : Pseudo) (block : MsgBlock) : List HostLine := (Pseudo.load block).lines ++ start.lines ++ [.wait]

/-- Steps 2 and 3 of rule R197. Where `merge` holds, INIT is merged into the first block's NEXT as `init_next`. -/
def compressLines (merge : Bool) (blocks : List MsgBlock) : List HostLine :=
  match merge, blocks with
  | true, B :: rest => blockLines .initNext B ++ rest.flatMap (blockLines .next)
  | _, _ => Pseudo.init.lines ++ blocks.flatMap (blockLines .next)

/-- Steps 1 to 5 of rule R197: wait; INIT and the blocks, one at a time; the eight HASH reads; the STATUS read. -/
def digestProgram (merge : Bool) (blocks : List MsgBlock) : List HostLine :=
  [.wait] ++ compressLines merge blocks ++ Pseudo.rdhash.lines ++ Pseudo.poll.lines

/-- Steps 5 and 6 of rule R197, from the nine words the host has read: with ERR = 0 and VALID = 1 the eight hash words,
serialized; otherwise the result is not a digest. -/
def digestOfAnswers (answers : List Word) : Option (List Byte) :=
  match answers with
  | [h0, h1, h2, h3, h4, h5, h6, h7, status] =>
    if !status.getLsbD 2 && status.getLsbD 1 then some (digestBytes #v[h0, h1, h2, h3, h4, h5, h6, h7]) else none
  | _ => none

end Sys2Proof.Machine
end

