-- ==== Sys2Proof/Machine/Instances.lean ====
section
/-! DEFINITION. A system of N_CORES independent instances of the block (rules R201 and R236): each has its own copy of every
state element, they share only the read-only tables, and a step of the system is a step of one of them. DESIGN CHOICE,
safe: log entry 9. -/

namespace Sys2Proof.Machine

/-- The instances of a system, N_CORES of them (rule R236). -/
structure Instances where
  cores : Vector State Config.nCores
  deriving DecidableEq, Repr

/-- Every instance starts independently at reset (rule R236). -/
def Instances.reset : Instances := ⟨Vector.replicate Config.nCores State.reset⟩

/-- A step of instance k. An access on the bus of instance k is decoded against the one CORE_BASE, the same for every
instance, since the spec gives one and does not say whether each has its own: DESIGN CHOICE, unsafe, log entry 17. -/
def Instances.stepAt (k : Fin Config.nCores) (S : Instances) : Host.Outcome Instances Fault Refusal :=
  match step S.cores[k] with
  | .next s => .next ⟨S.cores.set k s⟩
  | .fault r => .fault r
  | .refused r => .refused r

end Sys2Proof.Machine
end

