-- ==== Sys2Proof/Machine/PortMap.lean ====
section
/-! DEFINITION. The register map of rule R72 seen from the address: what a read of a location returns, and what a write to
it does while the block is idle. It says the map once more, apart from the decoder's rows, so that statements about
"every location" can be checked against the rows. -/

namespace Sys2Proof.Machine

/-- The RDATA of a read of each of the 32 locations (rules R72 and R150). -/
def locationValue (s : State) (addr : PortAddr) : Word :=
  if h : addr.toNat < 16 then s.msg[addr.toNat]
  else if h : addr.toNat < 24 then s.hash[addr.toNat - 16]'(by omega)
  else if addr = 0x19#5 then statusWord s
  else 0#32

/-- What a write of d does to each of the 32 locations while phase = IDLE (rules R72 and R151). -/
def locationWrite (addr : PortAddr) (d : Word) (s : State) : State :=
  if h : addr.toNat < 16 then setMsg ⟨addr.toNat, h⟩ d s
  else if addr.toNat < 24 then recordError .roWrite s
  else if addr = 0x18#5 then command d s
  else if addr = 0x19#5 then recordError .roWrite s
  else recordError .rsvWrite s

/-- The code that a write records while ERR = 0, by the priority of rule R228, and 0 where it records none. -/
def writeErrorCode (s : State) (addr : PortAddr) (d : Word) : BitVec 4 :=
  match s.phase with
  | .run => 1#4
  | .idle =>
    if addr.toNat < 16 then 0#4
    else if addr.toNat < 24 ∨ addr = 0x19#5 then 2#4
    else if 0x1A ≤ addr.toNat then 3#4
    else if ctrlReserved d ≠ 0#29 then 4#4
    else 0#4

end Sys2Proof.Machine
end

