-- ==== Sys2Proof/Machine/Run.lean ====
section
/-! DEFINITION. A run: steps one after another (rule R59), stopping at the first fault or refusal. -/

namespace Sys2Proof.Machine

/-- `n` steps from s. -/
def runSteps : Nat → State → Host.Outcome State Fault Refusal
  | 0, s => .next s
  | n + 1, s =>
    match step s with
    | .next t => runSteps n t
    | .fault r => .fault r
    | .refused r => .refused r

end Sys2Proof.Machine
end

