-- ==== Sys2Proof/Safety.lean ====
section
/-! DEFINITION. What counts as a safe state and a safe run, and the words in which claims about the whole machine are stated:
which turn a state is about to take, and what a block in progress has computed so far. A state is safe when it
satisfies the invariants of rule R36; a run is safe when it neither faults nor is refused. -/

namespace Sys2Proof

open Sys2Proof.Machine

/-- The state satisfies rule R36. -/
abbrev Consistent (s : State) : Prop := consistent s = true

/-- `n` steps from s end in a next state: no fault and no refusal on the way. -/
def SafeRun (n : Nat) (s : State) : Prop := ∃ t, runSteps n s = .next t

/-- The turn is a port transaction, an engine turn or reset: not an access that the bus adapter may refuse. -/
def onPort : Turn → Bool
  | .host _ => true
  | .bus _ => false
  | .engine => true
  | .reset => true

/-- What the host checks before it takes H for a digest (rule R197, steps 4 and 5). -/
def digestReady (s : State) : Bool := !busy s && !s.err && s.valid

/-- The transaction that a turn of the host puts on the port, where it puts one there. -/
def turnTransaction : Turn → Option TxnWord
  | .host T => some T
  | .bus a =>
    match busTransaction a with
    | .ok T => some T
    | .error _ => none
  | .engine => none
  | .reset => none

/-- The host transaction that the next step runs, where the next turn is the host's. -/
def pendingInstr (s : State) : Option Instr :=
  match s.agenda with
  | [] => none
  | x :: _ =>
    match turnTransaction x with
    | none => none
    | some T =>
      match decode T with
      | .ok i => some i
      | .error _ => none

/-- The next turn is the engine's: it is offered one, or the agenda is empty. -/
def engineTurn (s : State) : Bool :=
  match s.agenda with
  | [] => true
  | x :: _ => x == .engine

/-- The next turn is reset. -/
def resetTurn (s : State) : Bool :=
  match s.agenda with
  | [] => false
  | x :: _ => x == .reset

/-- The next step is a round (rule R128). -/
def roundTurn (s : State) : Bool := engineTurn s && busy s && decide (s.t.toNat ≤ 63)

/-- The next step is a fold (rule R128). -/
def foldTurn (s : State) : Bool := engineTurn s && busy s && decide (s.t.toNat = 64)

/-- The word of the CTRL write that the next step accepts: one issued while phase = IDLE with its reserved bits 0 (rules
R151 and R156). -/
def acceptedCommand (s : State) : Option Word :=
  match s.phase, pendingInstr s with
  | .idle, some (.ctrlWr d) => if d.extractLsb' 3 29 = 0#29 then some d else none
  | _, _ => none

/-- The next step accepts a CTRL write with the given bit set (rule R24: 0 is INIT, 1 NEXT, 2 CLRERR). -/
def commandTurn (bit : Nat) (s : State) : Bool :=
  match acceptedCommand s with
  | some d => d.getLsbD bit
  | none => false

/-- A block M, started from the hash value H, is in progress with its first n rounds done: H is still the value it
started from, a..h are what n rounds make of it, and W holds Sched(M) as far as it has been computed (rules R105
and R132). -/
def InFlight (H : HashState) (M : MsgBlock) (n : Nat) (s : State) : Prop :=
  s.phase = .run ∧ n ≤ 64 ∧ s.t = BitVec.ofNat 7 n ∧ s.hash = H ∧ s.work = (varsAfter H M n).store ∧
    ∀ i : Fin 64, s.w[i] = if i.val < max 16 n then some (schedAt M i.val) else none

end Sys2Proof
end

