-- ==== Sys2Proof/Certificates/Slice0/Obligations.lean ====
section
/-! DEFINITION. The statements for the provers. Each says which rule of the spec it formalises. A statement about one step
speaks of `exec` for a transaction and of `step` for the machine; `step` takes the next turn of the agenda. The fields
`agenda` and `rdata` are the model's own (log entries 1 to 3): the interleaving of rule R21 as data, and the RDATA of
rule R71. -/

open Sys2Proof Sys2Proof.Machine

/-! ### Arithmetic of the datapath -/

/-- Rule R7: bit i of `rotr(x, n)` is bit (i + n) mod 32 of x; the formula by shifts; rotation by 0. -/
def Obligations.RotateRightMovesBits : Prop :=
  ∀ (x : Word) (n : Nat), n ≤ 31 →
    (∀ i, i < 32 → (rotr x n).getLsbD i = x.getLsbD ((i + n) % 32)) ∧
    (rotr x n).toNat = (x.toNat / 2 ^ n ||| x.toNat * 2 ^ (32 - n)) % 2 ^ 32 ∧
    rotr x 0 = x

/-- Rule R8: `shr(x, n)` is floor(x / 2^n), and its bits 31 down to 32 - n are 0. -/
def Obligations.ShiftRightFillsZero : Prop :=
  ∀ (x : Word) (n : Nat), n ≤ 31 →
    (shr x n).toNat = x.toNat / 2 ^ n ∧ ∀ i, 32 - n ≤ i → i ≤ 31 → (shr x n).getLsbD i = false

/-- Rules R102 and R104: σ0 and σ1, linear over xor, with the rules' corner cases and worked examples. -/
def Obligations.SmallSigmas : Prop :=
  (∀ x : Word, smallSigma0 x = rotr x 7 ^^^ rotr x 18 ^^^ shr x 3) ∧
  (∀ x : Word, smallSigma1 x = rotr x 17 ^^^ rotr x 19 ^^^ shr x 10) ∧
  (∀ x y : Word, smallSigma0 (x ^^^ y) = smallSigma0 x ^^^ smallSigma0 y) ∧
  (∀ x y : Word, smallSigma1 (x ^^^ y) = smallSigma1 x ^^^ smallSigma1 y) ∧
  smallSigma0 0#32 = 0#32 ∧ smallSigma0 0xFFFFFFFF#32 = 0x1FFFFFFF#32 ∧ smallSigma0 1#32 = 0x02004000#32 ∧
  smallSigma1 0#32 = 0#32 ∧ smallSigma1 0xFFFFFFFF#32 = 0x003FFFFF#32 ∧ smallSigma1 1#32 = 0x0000A000#32

/-- Rules R120 and R121: Σ0 and Σ1, linear over xor, with the rules' corner cases and worked examples. -/
def Obligations.BigSigmas : Prop :=
  (∀ x : Word, bigSigma0 x = rotr x 2 ^^^ rotr x 13 ^^^ rotr x 22) ∧
  (∀ x : Word, bigSigma1 x = rotr x 6 ^^^ rotr x 11 ^^^ rotr x 25) ∧
  (∀ x y : Word, bigSigma0 (x ^^^ y) = bigSigma0 x ^^^ bigSigma0 y) ∧
  (∀ x y : Word, bigSigma1 (x ^^^ y) = bigSigma1 x ^^^ bigSigma1 y) ∧
  bigSigma0 0#32 = 0#32 ∧ bigSigma0 0xFFFFFFFF#32 = 0xFFFFFFFF#32 ∧ bigSigma0 0x6a09e667#32 = 0xce20b47e#32 ∧
  bigSigma1 0#32 = 0#32 ∧ bigSigma1 0xFFFFFFFF#32 = 0xFFFFFFFF#32 ∧ bigSigma1 0x510e527f#32 = 0x3587272b#32

/-- Rule R122: Ch selects, bit by bit, from f where e is 1 and from g where e is 0. -/
def Obligations.ChoiceSelectsBits : Prop :=
  ∀ e f g : Word,
    choose e f g = (e &&& f) ^^^ (~~~e &&& g) ∧
    (∀ i, i < 32 → (choose e f g).getLsbD i = if e.getLsbD i then f.getLsbD i else g.getLsbD i) ∧
    choose 0xFFFFFFFF#32 f g = f ∧ choose 0#32 f g = g ∧ choose e f f = f ∧
    choose 0x510e527f#32 0x9b05688c#32 0x1f83d9ab#32 = 0x1f85c98c#32

/-- Rule R123: Maj is 1 in a bit exactly when at least two of its operands are. -/
def Obligations.MajorityOfBits : Prop :=
  ∀ a b c : Word,
    majority a b c = (a &&& b) ^^^ (a &&& c) ^^^ (b &&& c) ∧
    (∀ i, i < 32 → ((majority a b c).getLsbD i = true ↔
      2 ≤ (a.getLsbD i).toNat + (b.getLsbD i).toNat + (c.getLsbD i).toNat)) ∧
    majority a a b = a ∧ majority 0xFFFFFFFF#32 b c = b ||| c ∧ majority 0#32 b c = b &&& c ∧
    majority 0x6a09e667#32 0xbb67ae85#32 0x3c6ef372#32 = 0x3a6fe667#32

/-- The check that 10_state.md section 5 gives for its tables: K[i] is the first 32 bits of the fractional part of the cube root
of the (i+1)-th prime, IV[i] the same for the square root. `q` is the root's integer part. -/
def Obligations.TablesAreRootsOfPrimes : Prop :=
  let primes : Vector Nat 64 := (
    #v[2, 3, 5, 7, 11, 13, 17, 19, 23, 29, 31, 37, 41, 43, 47, 53] ++
    #v[59, 61, 67, 71, 73, 79, 83, 89, 97, 101, 103, 107, 109, 113, 127, 131] ++
    #v[137, 139, 149, 151, 157, 163, 167, 173, 179, 181, 191, 193, 197, 199, 211, 223] ++
    #v[227, 229, 233, 239, 241, 251, 257, 263, 269, 271, 277, 281, 283, 293, 307, 311] : Vector Nat (16 + 16 + 16 + 16))
  (∀ i : Fin 64, ∃ q, q < 8 ∧
    (q * 2 ^ 32 + K[i].toNat) ^ 3 ≤ primes[i] * 2 ^ 96 ∧ primes[i] * 2 ^ 96 < (q * 2 ^ 32 + K[i].toNat + 1) ^ 3) ∧
  (∀ i : Fin 8, ∃ q, q < 8 ∧
    (q * 2 ^ 32 + IV[i].toNat) ^ 2 ≤ primes[i.val] * 2 ^ 64 ∧
    primes[i.val] * 2 ^ 64 < (q * 2 ^ 32 + IV[i].toNat + 1) ^ 2)

/-! ### The schedule function -/

/-- Rule R100: Sched(M) has 64 words: the block's own sixteen, then the recurrence; with the rule's corner case and worked
example. -/
def Obligations.ScheduleRecurrence : Prop :=
  (∀ M : MsgBlock,
    (sched M).length = 64 ∧
    (∀ (t : Nat) (h : t < 16), schedAt M t = M[t]) ∧
    ∀ t, 16 ≤ t → t < 64 →
      schedAt M t =
        smallSigma1 (schedAt M (t - 2)) + schedAt M (t - 7) + smallSigma0 (schedAt M (t - 15)) + schedAt M (t - 16)) ∧
  (∀ t, t < 64 → schedAt (Vector.replicate 16 0#32) t = 0#32) ∧
  (let abc : MsgBlock := #v[0x61626380#32, 0#32, 0#32, 0#32, 0#32, 0#32, 0#32, 0#32,
      0#32, 0#32, 0#32, 0#32, 0#32, 0#32, 0#32, 0x18#32]
   schedAt abc 16 = 0x61626380#32 ∧ schedAt abc 17 = 0x000f0000#32)

/-- For t of 16 or more, the schedule word of round t depends only on the four words t-2, t-7, t-15 and t-16, in the engine's
storage and in the pure function (rule R106, which the spec marks as its inference from rule R100). -/
def Obligations.ScheduleNeedsFourWords : Prop :=
  (∀ (w w' : Vector (Option Word) 64) (t : Nat), 16 ≤ t → t < 64 →
    (∀ k, k = 2 ∨ k = 7 ∨ k = 15 ∨ k = 16 → w[t - k]? = w'[t - k]?) → expandedWord w t = expandedWord w' t) ∧
  (∀ ws ws' : List Word, 16 ≤ ws.length → ws'.length = ws.length →
    (∀ k, k = 2 ∨ k = 7 ∨ k = 15 ∨ k = 16 → ws[ws.length - k]? = ws'[ws.length - k]?) →
    nextScheduleWord ws = nextScheduleWord ws')

/-! ### Encoding -/

/-- Decoding the word of a well-formed instruction gives the instruction back, with every operand at every value (rules R71 to
R74). -/
def Obligations.DecodeOfEncode : Prop :=
  ∀ i : Instr, i.wellFormed = true → decode (encode i) = .ok i

/-- Encoding what a word decodes to gives the word back, but for the WDATA of a read, which is ignored and canonically 0 (rule
R71); and what it decodes to is well formed. -/
def Obligations.EncodeOfDecode : Prop :=
  ∀ (T : TxnWord) (i : Instr), decode T = .ok i →
    i.wellFormed = true ∧ i.isWrite = T.we ∧
    (T.we = true → encode i = T) ∧ (T.we = false → encode i = mkTxn false T.addr 0#32)

/-- Rule R74: every 38-bit word belongs to exactly one of the twelve rows, the decoder gives that row's instruction, and the
bits of WDATA never select a row. -/
def Obligations.EveryWordHasOneRow : Prop :=
  let rows : List (RowName × TxnWord × TxnWord) :=
    [ (.msgRd, 0x3000000000#38, 0x0000000000#38), (.msgWr, 0x3000000000#38, 0x2000000000#38),
      (.hashRd, 0x3800000000#38, 0x1000000000#38), (.hashWr, 0x3800000000#38, 0x3000000000#38),
      (.ctrlRd, 0x3F00000000#38, 0x1800000000#38), (.ctrlWr, 0x3F00000000#38, 0x3800000000#38),
      (.statusRd, 0x3F00000000#38, 0x1900000000#38), (.statusWr, 0x3F00000000#38, 0x3900000000#38),
      (.rsvRdLo, 0x3E00000000#38, 0x1A00000000#38), (.rsvWrLo, 0x3E00000000#38, 0x3A00000000#38),
      (.rsvRdHi, 0x3C00000000#38, 0x1C00000000#38), (.rsvWrHi, 0x3C00000000#38, 0x3C00000000#38) ]
  (∀ T : TxnWord, ∃ r, r ∈ rows ∧ T &&& r.2.1 = r.2.2 ∧ (∀ r', r' ∈ rows → T &&& r'.2.1 = r'.2.2 → r' = r) ∧
    decode T = .ok (r.1.operands T)) ∧
  (∀ (we : Bool) (a : PortAddr) (d d' : Word), ∀ r ∈ rows,
    (mkTxn we a d &&& r.2.1 = r.2.2 ↔ mkTxn we a d' &&& r.2.1 = r.2.2))

/-- The register map of rule R72 with the operand rules of R73: what each location's read and write decode to. -/
def Obligations.DecodeByLocation : Prop :=
  ∀ (a : PortAddr) (d : Word),
    decode (mkTxn false a d) = .ok (
      if h : a.toNat < 16 then .msgRd ⟨a.toNat, h⟩
      else if h : a.toNat < 24 then .hashRd ⟨a.toNat - 16, by omega⟩
      else if a = 0x18#5 then .ctrlRd
      else if a = 0x19#5 then .statusRd
      else if a.toNat < 0x1C then .rsvRdLo a
      else .rsvRdHi a) ∧
    decode (mkTxn true a d) = .ok (
      if h : a.toNat < 16 then .msgWr ⟨a.toNat, h⟩ d
      else if h : a.toNat < 24 then .hashWr ⟨a.toNat - 16, by omega⟩ d
      else if a = 0x18#5 then .ctrlWr d
      else if a = 0x19#5 then .statusWr d
      else if a.toNat < 0x1C then .rsvWrLo a d
      else .rsvWrHi a d)

/-- The worked encodings of rule R79, which the spec marks as derived from its rules: each line of assembly, its transaction
word, and what the word decodes to. -/
def Obligations.WorkedEncodings : Prop :=
  ∀ e ∈ ([ (.wr (.msg 0) 0x61626380#32, 0x2061626380#38, .msgWr 0 0x61626380#32),
           (.wr (.msg 15) 0x00000018#32, 0x2F00000018#38, .msgWr 15 0x00000018#32),
           (.rd (.msg 3), 0x0300000000#38, .msgRd 3),
           (.rd (.hash 0), 0x1000000000#38, .hashRd 0),
           (.rd (.hash 7), 0x1700000000#38, .hashRd 7),
           (.wr (.hash 2) 0#32, 0x3200000000#38, .hashWr 2 0#32),
           (.wr .ctrl 3#32, 0x3800000003#38, .ctrlWr 3#32),
           (.wr .ctrl 8#32, 0x3800000008#38, .ctrlWr 8#32),
           (.rd .status, 0x1900000000#38, .statusRd),
           (.rd (.raw 0x1F#5), 0x1F00000000#38, .rsvRdHi 0x1F#5),
           (.wr (.raw 0x1A#5) 1#32, 0x3A00000001#38, .rsvWrLo 0x1A#5 1#32) ] : List (AsmLine × TxnWord × Instr)),
    e.1.word = e.2.1 ∧ decode e.2.1 = .ok e.2.2

/-- The transaction words of the pseudo-instructions, as rule R78's table gives them; `poll` is one iteration of `wait`. -/
def Obligations.PseudoInstructionWords : Prop :=
  Pseudo.init.words = [0x3800000001#38] ∧ Pseudo.next.words = [0x3800000002#38] ∧
  Pseudo.initNext.words = [0x3800000003#38] ∧ Pseudo.clrerr.words = [0x3800000004#38] ∧
  Pseudo.poll.words = [0x1900000000#38] ∧
  Pseudo.rdhash.words = [0x1000000000#38, 0x1100000000#38, 0x1200000000#38, 0x1300000000#38,
    0x1400000000#38, 0x1500000000#38, 0x1600000000#38, 0x1700000000#38] ∧
  ∀ B : MsgBlock, (Pseudo.load B).words.length = 16 ∧
    ∀ i : Fin 16, (Pseudo.load B).words[i.val]? = some (BitVec.ofNat 38 ((0x20 + i.val) * 2 ^ 32 + B[i].toNat))

/-! ### Reads -/

/-- Every read row completes in every state, gives its RDATA and changes nothing in the block: MSG_RD the message word, HASH_RD
the hash word, STATUS_RD the status word, CTRL_RD and the reserved rows 0 (43_host_port.md). -/
def Obligations.ReadRowsAnswer : Prop :=
  ∀ s : State,
    (∀ i, exec (.msgRd i) s = .next { s with rdata := some s.msg[i] }) ∧
    (∀ i, exec (.hashRd i) s = .next { s with rdata := some s.hash[i] }) ∧
    exec .ctrlRd s = .next { s with rdata := some 0#32 } ∧
    exec .statusRd s = .next { s with rdata := some (statusWord s) } ∧
    (∀ a, exec (.rsvRdLo a) s = .next { s with rdata := some 0#32 }) ∧
    (∀ a, exec (.rsvRdHi a) s = .next { s with rdata := some 0#32 })

/-- Rule R150: a read of any of the 32 locations, with any WDATA, is accepted in every phase, returns what the register map
gives for the location, and changes no state element. -/
def Obligations.EveryReadTransaction : Prop :=
  ∀ (s : State) (T : TxnWord) (rest : List Turn), Consistent s → s.agenda = .host T :: rest → T.we = false →
    step s = .next { s with agenda := rest, rdata := some (locationValue s T.addr) }

/-- Rule R25: a read of STATUS returns the word assembled from the state at the moment of the read; its fields, bit by bit, and
their legal values in every state that satisfies rule R36; 0 after reset; a write to STATUS is refused with code 2. -/
def Obligations.StatusLayout : Prop :=
  (∀ s : State,
    ((statusWord s).getLsbD 0 = true ↔ s.phase = .run) ∧
    (statusWord s).getLsbD 1 = s.valid ∧
    (statusWord s).getLsbD 2 = s.err ∧
    (statusWord s).getLsbD 3 = false ∧
    (statusWord s).extractLsb' 4 4 = s.errcode ∧
    (statusWord s).extractLsb' 8 7 = (if s.phase = .run then s.t else 0#7) ∧
    (∀ i, 15 ≤ i → i ≤ 31 → (statusWord s).getLsbD i = false) ∧
    exec .statusRd s = .next { s with rdata := some (statusWord s) } ∧
    ∀ d, s.phase = .idle → s.err = false →
      exec (.statusWr d) s = .next { s with rdata := none, err := true, errcode := 2#4 }) ∧
  (∀ s : State, Consistent s →
    ((statusWord s).extractLsb' 4 4).toNat ≤ 4 ∧ ((statusWord s).extractLsb' 8 7).toNat ≤ 64) ∧
  statusWord State.reset = 0x00000000#32

/-! ### Writes -/

/-- MSG_WR (43_host_port.md section 2): while idle the word replaces all of MSG[i]; no other message word and nothing else of
the block changes. -/
def Obligations.MessageWriteStores : Prop :=
  ∀ (s : State) (i : Fin 16) (d : Word), s.phase = .idle →
    ∃ t, exec (.msgWr i d) s = .next t ∧
      t.msg[i] = d ∧ (∀ j : Fin 16, j ≠ i → t.msg[j] = s.msg[j]) ∧
      t = { s with msg := t.msg, rdata := none }

/-- Rule R223: a write to a HASH location or to STATUS while idle records RO_WRITE, code 2, where no error is recorded yet, and
does nothing else. -/
def Obligations.ReadOnlyWritesRecord : Prop :=
  ∀ (s : State), s.phase = .idle →
    (∀ i d, exec (.hashWr i d) s =
      .next { s with rdata := none, err := true, errcode := if s.err then s.errcode else 2#4 }) ∧
    (∀ d, exec (.statusWr d) s =
      .next { s with rdata := none, err := true, errcode := if s.err then s.errcode else 2#4 })

/-- Rule R224: a write to a reserved location while idle records RSV_WRITE, code 3, where no error is recorded yet, and does
nothing else. -/
def Obligations.ReservedWritesRecord : Prop :=
  ∀ (s : State), s.phase = .idle →
    (∀ a d, exec (.rsvWrLo a d) s =
      .next { s with rdata := none, err := true, errcode := if s.err then s.errcode else 3#4 }) ∧
    (∀ a d, exec (.rsvWrHi a d) s =
      .next { s with rdata := none, err := true, errcode := if s.err then s.errcode else 3#4 })

/-- Rules R156 and R225: what a CTRL write does. Busy, it is refused with code 1. Idle with a reserved bit set, it only records
code 4. Idle with the reserved bits 0, each of its three command bits does its part, in the order CLRERR, INIT, NEXT; with
the rule's worked example. -/
def Obligations.CommandWrites : Prop :=
  (∀ (s : State) (d : Word), s.phase = .run →
    exec (.ctrlWr d) s = .next { s with rdata := none, err := true, errcode := if s.err then s.errcode else 1#4 }) ∧
  (∀ (s : State) (d : Word), s.phase = .idle → d.extractLsb' 3 29 ≠ 0#29 →
    exec (.ctrlWr d) s = .next { s with rdata := none, err := true, errcode := if s.err then s.errcode else 4#4 }) ∧
  (∀ (s : State) (d : Word), s.phase = .idle → d.extractLsb' 3 29 = 0#29 →
    ∃ t, exec (.ctrlWr d) s = .next t ∧
      t.msg = s.msg ∧ t.rdata = none ∧ t.agenda = s.agenda ∧
      (d.getLsbD 2 = true → t.err = false ∧ t.errcode = 0#4) ∧
      (d.getLsbD 2 = false → t.err = s.err ∧ t.errcode = s.errcode) ∧
      (d.getLsbD 0 = true → t.hash = IV ∧ t.valid = false) ∧
      (d.getLsbD 0 = false → t.hash = s.hash ∧ t.valid = s.valid) ∧
      (d.getLsbD 1 = true → t.phase = .run ∧ busy t = true ∧ t.t = 0#7 ∧
        (∀ (i : Nat) (h : i < 16), t.w[i] = some s.msg[i]) ∧
        (∀ (i : Nat) (_ : 16 ≤ i) (h : i < 64), t.w[i] = none) ∧
        t.work = ⟨some t.hash[0], some t.hash[1], some t.hash[2], some t.hash[3],
                  some t.hash[4], some t.hash[5], some t.hash[6], some t.hash[7]⟩) ∧
      (d.getLsbD 1 = false → t.phase = .idle ∧ t.t = s.t ∧ t.w = s.w ∧ t.work = s.work)) ∧
  (∀ s : State, s.phase = .idle → s.err = false → s.errcode = 0#4 →
    ∃ t, exec (.ctrlWr 3#32) s = .next t ∧ statusWord t = 0x00000001#32 ∧
      t.work = ⟨some 0x6a09e667#32, some 0xbb67ae85#32, some 0x3c6ef372#32, some 0xa54ff53a#32,
                some 0x510e527f#32, some 0x9b05688c#32, some 0x1f83d9ab#32, some 0x5be0cd19#32⟩)

/-- Rule R222: a write of any row while the engine runs records BUSY_WRITE, code 1, where no error is recorded yet, and does
nothing else. -/
def Obligations.BusyWritesRecord : Prop :=
  ∀ (s : State) (i : Instr), s.phase = .run → i.isWrite = true →
    exec i s = .next { s with rdata := none, err := true, errcode := if s.err then s.errcode else 1#4 }

/-- Rule R151: a write of any location: while the engine runs it only records BUSY_WRITE; while idle it does what the register
map gives for the location. -/
def Obligations.EveryWriteTransaction : Prop :=
  ∀ (s : State) (T : TxnWord) (rest : List Turn), Consistent s → s.agenda = .host T :: rest → T.we = true →
    (s.phase = .run → step s =
      .next { s with agenda := rest, rdata := none, err := true, errcode := if s.err then s.errcode else 1#4 }) ∧
    (s.phase = .idle → step s = .next (locationWrite T.addr T.wdata { s with agenda := rest, rdata := none }))

/-- Rule R221: a refused write, of whatever row and for whatever reason, completes and leaves everything but the error record as
it was. -/
def Obligations.RefusedWritesOnlyRecord : Prop :=
  ∀ (s : State) (i : Instr), i.isWrite = true →
    (s.phase = .run ∨
      ((∀ k d, i ≠ .msgWr k d) ∧ ∀ d, i = .ctrlWr d → d.extractLsb' 3 29 ≠ 0#29)) →
    ∃ t, exec i s = .next t ∧ t.err = true ∧ (s.err = true → t.errcode = s.errcode) ∧
      t.msg = s.msg ∧ t.hash = s.hash ∧ t.phase = s.phase ∧ t.w = s.w ∧ t.work = s.work ∧ t.valid = s.valid ∧
      t.t = s.t ∧ t.agenda = s.agenda ∧ t.rdata = none

/-- Rule R228: the code a write records while ERR = 0 follows the priority busy, then address, then CTRL bits; while ERR = 1 the
code is kept unless the write is an accepted CLRERR; and engine turns record nothing. -/
def Obligations.WriteErrorPriority : Prop :=
  (∀ (s : State) (T : TxnWord) (rest : List Turn), Consistent s → s.agenda = .host T :: rest → T.we = true →
    ∃ t, step s = .next t ∧
      (s.err = false → t.errcode = writeErrorCode s T.addr T.wdata ∧
        (t.err = true ↔ writeErrorCode s T.addr T.wdata ≠ 0#4)) ∧
      (s.err = true → commandTurn 2 s = false → t.err = true ∧ t.errcode = s.errcode)) ∧
  (∀ s t : State, engineTurn s = true → step s = .next t → t.err = s.err ∧ t.errcode = s.errcode)

/-- Rule R220: `record_error` sets ERR and the code where ERR = 0, and changes nothing where ERR = 1; and only a write that is
refused calls it: wherever a step sets ERR, the step is a host write that is refused, while busy or by its row's own rule. -/
def Obligations.FirstErrorIsKept : Prop :=
  (∀ (e : ErrorName) (s : State), s.err = false → recordError e s = { s with err := true, errcode := e.code }) ∧
  (∀ (e : ErrorName) (s : State), s.err = true → recordError e s = s) ∧
  (∀ s t : State, step s = .next t → s.err = false → t.err = true →
    ∃ i, pendingInstr s = some i ∧ i.isWrite = true ∧
      (s.phase = .run ∨ ((∀ k d, i ≠ .msgWr k d) ∧ ∀ d, i = .ctrlWr d → d.extractLsb' 3 29 ≠ 0#29)))

/-! ### Who writes what, over all steps -/

/-- ERR is sticky (10_state.md section 4, 60_exceptions.md section 3): a recorded error stays, with its code, until an accepted
CLRERR or reset. -/
def Obligations.ErrorStaysUntilCleared : Prop :=
  ∀ s t : State, step s = .next t → s.err = true →
    (t.err = true ∧ t.errcode = s.errcode ∧ commandTurn 2 s = false ∧ resetTurn s = false) ∨
    (t.err = false ∧ t.errcode = 0#4 ∧ (commandTurn 2 s = true ∨ resetTurn s = true))

/-- MSG changes only by an accepted MSG_WR, in the one word it names, or by reset (10_state.md section 3). -/
def Obligations.MessageWriters : Prop :=
  ∀ s t : State, step s = .next t →
    t.msg = s.msg ∨
    (resetTurn s = true ∧ t.msg = Vector.replicate 16 0#32) ∨
    ∃ i d, s.phase = .idle ∧ pendingInstr s = some (.msgWr i d) ∧ t.msg = s.msg.set i d

/-- H changes only by INIT, by the fold and by reset (10_state.md section 3); the fold adds a..h to all eight words in that one
step. -/
def Obligations.HashWriters : Prop :=
  ∀ s t : State, step s = .next t →
    (commandTurn 0 s = true → t.hash = IV) ∧
    (resetTurn s = true → t.hash = IV) ∧
    (foldTurn s = true → ∃ v : Vars, s.work = v.store ∧ t.hash = foldHash s.hash v) ∧
    (commandTurn 0 s = false → resetTurn s = false → foldTurn s = false → t.hash = s.hash)

/-- Rule R29: VALID is set by every fold, cleared by INIT and by reset, and unchanged by every other step. -/
def Obligations.ValidFollowsFold : Prop :=
  ∀ s t : State, step s = .next t →
    (foldTurn s = true → t.valid = true) ∧
    (commandTurn 0 s = true → t.valid = false) ∧
    (resetTurn s = true → t.valid = false) ∧
    (foldTurn s = false → commandTurn 0 s = false → resetTurn s = false → t.valid = s.valid) ∧
    State.reset.valid = false

/-- The phase goes from IDLE to RUN exactly at an accepted NEXT, and from RUN to IDLE exactly at the fold and at reset
(10_state.md section 4); so a NEXT is accepted only while idle, and BUSY reads 1 in the very next state. -/
def Obligations.PhaseTransitions : Prop :=
  ∀ s t : State, step s = .next t →
    (s.phase = .idle → (t.phase = .run ↔ commandTurn 1 s = true)) ∧
    (s.phase = .run → (t.phase = .idle ↔ (foldTurn s = true ∨ resetTurn s = true))) ∧
    (commandTurn 1 s = true → s.phase = .idle ∧ busy t = true ∧ roundField t = 0#7)

/-- W, a..h and t change only by an accepted NEXT, by engine turns while the phase is RUN, and by reset (10_state.md section 4);
no host transaction disturbs a block in progress. -/
def Obligations.EngineStateWriters : Prop :=
  ∀ s t : State, step s = .next t → commandTurn 1 s = false → roundTurn s = false → foldTurn s = false →
    resetTurn s = false → t.w = s.w ∧ t.work = s.work ∧ t.t = s.t

/-! ### The engine -/

/-- Rule R128: from a state that satisfies rule R36 the engine has a step exactly while the phase is RUN: a round for t up to 63
and the fold for t = 64; it is never refused and records no error. That a turn offered to the idle engine passes without
effect is the model's choice (log entry 4). -/
def Obligations.EngineDispatch : Prop :=
  ∀ s : State, Consistent s →
    (s.phase = .idle → engineStep s = .next s) ∧
    (s.phase = .run → s.t.toNat ≤ 64 ∧
      ∃ t, engineStep s = .next t ∧ t ≠ s ∧ t.err = s.err ∧ t.errcode = s.errcode ∧ t.msg = s.msg ∧
        (s.t.toNat ≤ 63 → t.phase = .run ∧ t.t.toNat = s.t.toNat + 1 ∧ t.hash = s.hash ∧ t.valid = s.valid) ∧
        (s.t.toNat = 64 → t.phase = .idle ∧ t.valid = true))

/-- Rule R130: one round, every read from the state before it; with the rule's corner case and worked example. -/
def Obligations.RoundStep : Prop :=
  (∀ (s : State) (a b c d e f g h wt : Word), s.phase = .run → s.t.toNat ≤ 63 →
    s.work = ⟨some a, some b, some c, some d, some e, some f, some g, some h⟩ →
    (s.t.toNat < 16 → s.w[s.t.toNat]? = some (some wt)) →
    (16 ≤ s.t.toNat → ∃ w2 w7 w15 w16 : Word,
      s.w[s.t.toNat - 2]? = some (some w2) ∧ s.w[s.t.toNat - 7]? = some (some w7) ∧
      s.w[s.t.toNat - 15]? = some (some w15) ∧ s.w[s.t.toNat - 16]? = some (some w16) ∧
      wt = smallSigma1 w2 + w7 + smallSigma0 w15 + w16) →
    ∃ (k : Word) (u : State), K[s.t.toNat]? = some k ∧ engineStep s = .next u ∧
      (let T1 := h + bigSigma1 e + choose e f g + k + wt
       let T2 := bigSigma0 a + majority a b c
       u.work = ⟨some (T1 + T2), some a, some b, some c, some (d + T1), some e, some f, some g⟩) ∧
      (∀ i : Fin 64, u.w[i] = if 16 ≤ s.t.toNat ∧ i.val = s.t.toNat then some wt else s.w[i]) ∧
      u.t.toNat = s.t.toNat + 1 ∧ roundField u = u.t ∧ busy u = true ∧
      u = { s with work := u.work, w := u.w, t := u.t }) ∧
  0xFFFFFFFF#32 + 0xFFFFFFFF#32 + 0xFFFFFFFF#32 + 0xFFFFFFFF#32 + 0xFFFFFFFF#32 = 0xFFFFFFFB#32 ∧
  K[0] = 0x428a2f98#32 ∧ bigSigma1 IV[4] = 0x3587272b#32 ∧ choose IV[4] IV[5] IV[6] = 0x1f85c98c#32 ∧
  bigSigma0 IV[0] = 0xce20b47e#32 ∧ majority IV[0] IV[1] IV[2] = 0x3a6fe667#32 ∧
  (seedVars IV).temp1 0x428a2f98#32 0x61626380#32 = 0x54da50e8#32 ∧
  (seedVars IV).temp2 = 0x08909ae5#32 ∧
  ((seedVars IV).round 0x428a2f98#32 0x61626380#32).a = 0x5d6aebcd#32 ∧
  ((seedVars IV).round 0x428a2f98#32 0x61626380#32).e = 0xfa2a4622#32

/-- Rule R131: the fold: all eight words of H in one step, W and a..h cleared, idle, VALID set; no other step but INIT and reset
writes H; with the rule's corner case and worked example. -/
def Obligations.FoldStep : Prop :=
  (∀ (s : State) (a b c d e f g h : Word), s.phase = .run → s.t.toNat = 64 →
    s.work = ⟨some a, some b, some c, some d, some e, some f, some g, some h⟩ →
    ∃ u, engineStep s = .next u ∧
      u.hash[0] = s.hash[0] + a ∧ u.hash[1] = s.hash[1] + b ∧ u.hash[2] = s.hash[2] + c ∧ u.hash[3] = s.hash[3] + d ∧
      u.hash[4] = s.hash[4] + e ∧ u.hash[5] = s.hash[5] + f ∧ u.hash[6] = s.hash[6] + g ∧ u.hash[7] = s.hash[7] + h ∧
      u.work = ⟨none, none, none, none, none, none, none, none⟩ ∧ (∀ i : Fin 64, u.w[i] = none) ∧
      u.t = 0#7 ∧ u.phase = .idle ∧ u.valid = true ∧
      busy u = false ∧ roundField u = 0#7 ∧
      u.msg = s.msg ∧ u.err = s.err ∧ u.errcode = s.errcode ∧ u.rdata = s.rdata ∧ u.agenda = s.agenda) ∧
  (∀ s t : State, step s = .next t → t.hash ≠ s.hash →
    foldTurn s = true ∨ commandTurn 0 s = true ∨ resetTurn s = true) ∧
  0xFFFFFFFF#32 + 1#32 = 0#32 ∧
  foldHash IV ⟨0x506e3058#32, 0xd39a2165#32, 0x04d24d6c#32, 0xb85e2ce9#32,
      0x5ef50f24#32, 0xfb121210#32, 0x948d25b6#32, 0x961f4894#32⟩ =
    #v[0xba7816bf#32, 0x8f01cfea#32, 0x414140de#32, 0x5dae2223#32, 0xb00361a3#32, 0x96177a9c#32, 0xb410ff61#32, 0xf20015ad#32]

/-- The pure round function of a block (rule R132, an inference of the spec's own): seeded from H, and each round one
application of the round of rule R130 with K[t] and Sched(M)[t]; Compress adds the words of round 63 to H. -/
def Obligations.RoundsOfBlock : Prop :=
  ∀ (H : HashState) (M : MsgBlock),
    varsAfter H M 0 = ⟨H[0], H[1], H[2], H[3], H[4], H[5], H[6], H[7]⟩ ∧
    (∀ (t : Nat) (ht : t < 64), varsAfter H M (t + 1) = (varsAfter H M t).round K[t] (schedAt M t)) ∧
    compress H M = foldHash H (varsAfter H M 64)

/-- An accepted NEXT starts a block from the MSG registers as they stand and from H, or from IV where INIT is set in the same
write: nothing of the schedule of an earlier block reaches it (rules R101 and R129; rule R107, an inference of the spec's
own). -/
def Obligations.NextStartsBlock : Prop :=
  ∀ s t : State, step s = .next t → commandTurn 1 s = true →
    InFlight (if commandTurn 0 s then IV else s.hash) s.msg 0 t ∧ t.msg = s.msg

/-- A block in progress follows the pure function whatever turn comes next (rules R105 and R132, inferences of the spec's own
from rules R100 to R131): an engine turn does the next round or, after round 63, folds; reset abandons it; every host turn
leaves it as it is. -/
def Obligations.BlockFollowsCompress : Prop :=
  ∀ (H : HashState) (M : MsgBlock) (n : Nat) (s t : State), InFlight H M n s → step s = .next t →
    (engineTurn s = true → n < 64 → InFlight H M (n + 1) t) ∧
    (engineTurn s = true → n = 64 → t.phase = .idle ∧ t.hash = compress H M ∧ t.valid = true) ∧
    (resetTurn s = true → t.phase = .idle ∧ t.hash = IV) ∧
    (engineTurn s = false → resetTurn s = false → InFlight H M n t)

/-- Rule R133, and rule R132's sentence, which the spec marks as its inference: a block started from H and M reaches Compress(H,
M) after exactly 65 engine turns, whatever host transactions interleave; until then it is busy and H is the value it started
from. -/
def Obligations.BlockTakesSixtyFiveSteps : Prop :=
  ∀ (H : HashState) (M : MsgBlock) (s : State) (before rest : List Turn),
    Consistent s → InFlight H M 0 s → s.agenda = before ++ .engine :: rest →
    (∀ x ∈ before, onPort x = true ∧ x ≠ .reset) → before.count .engine = 64 →
    (∀ k, k ≤ before.length → ∃ u, runSteps k s = .next u ∧ u.phase = .run ∧ u.hash = H) ∧
    ∃ t, runSteps (before.length + 1) s = .next t ∧ t.phase = .idle ∧ t.hash = compress H M ∧ t.valid = true ∧
      t.msg = s.msg ∧ t.agenda = rest

/-- Rule R271's sentence, which the spec marks as its inference: whatever port transactions the host still has to issue, without
reset, a running block ends: some step of the run is in phase IDLE. (That an empty agenda lets the engine go on is the
model's form of the fairness assumed, log entry 2.) -/
def Obligations.RunningBlockEnds : Prop :=
  ∀ s : State, Consistent s → s.phase = .run → (∀ x ∈ s.agenda, onPort x = true ∧ x ≠ .reset) →
    ∃ k t, k ≤ s.agenda.length + 65 ∧ runSteps k s = .next t ∧ t.phase = .idle

/-- The host's procedure of rules R197 and R198, as one host's program (log entries 12 and 18), and its result, which the spec
marks as its inference: from any state of the block that satisfies rule R36, whatever the schedule of host and engine moves
(log entries 1 and 4: an engine move beside an idle block passes), nothing stops; when the program is done, H is the blocks
compressed in order from IV, and what the host has read makes the digest where no error was recorded before and there is a
block, and no digest otherwise; and a schedule of enough rounds in which both agents move finishes it. -/
def Obligations.HostProcedureGivesDigest : Prop :=
  ∀ (s : State) (merge : Bool) (blocks : List MsgBlock), Consistent s →
    (∀ schedule, ∃ x, Session.run schedule (Session.start s (digestProgram merge blocks)) = .next x ∧ Consistent x.block ∧
      (x.program = [] →
        x.block.phase = .idle ∧ x.block.hash = compressAll IV blocks ∧ x.block.err = s.err ∧ x.block.errcode = s.errcode ∧
        (s.err = false → blocks ≠ [] → digestReady x.block = true ∧
          digestOfAnswers x.answers = some (digestBytes (compressAll IV blocks)) ∧
          ∀ input, blocksOf input = some blocks → digestOfAnswers x.answers = digest input) ∧
        (s.err = true ∨ blocks = [] → digestOfAnswers x.answers = none))) ∧
    ∃ n : Nat, ∀ rounds : List (List Mover), n ≤ rounds.length → (∀ r ∈ rounds, .host ∈ r ∧ .engine ∈ r) →
      ∃ x, Session.run rounds.flatten (Session.start s (digestProgram merge blocks)) = .next x ∧ x.program = []

/-! ### Invariants, reset, the step -/

/-- The invariants of rule R36, which the spec marks as its inference, written out; the state after reset satisfies them, and
every step from a state that satisfies them ends in one that does. -/
def Obligations.StepKeepsInvariants : Prop :=
  (∀ s : State, Consistent s ↔
    (s.phase = .idle → s.t = 0#7 ∧ (∀ i : Fin 64, s.w[i] = none) ∧
      s.work = ⟨none, none, none, none, none, none, none, none⟩) ∧
    (s.phase = .run → s.t.toNat ≤ 64 ∧
      (∃ a b c d e f g h : Word, s.work = ⟨some a, some b, some c, some d, some e, some f, some g, some h⟩) ∧
      ∀ i : Fin 64, (i.val < max 16 s.t.toNat → ∃ x : Word, s.w[i] = some x) ∧
        (max 16 s.t.toNat ≤ i.val → s.w[i] = none)) ∧
    (s.err = false ↔ s.errcode = 0#4) ∧
    (s.err = true → s.errcode = 1#4 ∨ s.errcode = 2#4 ∨ s.errcode = 3#4 ∨ s.errcode = 4#4)) ∧
  Consistent State.reset ∧
  ∀ s t : State, Consistent s → step s = .next t → Consistent t

/-- From a state that satisfies rule R36 every step completes, but for a bus access that the adapter refuses: nothing else
stops, and no NONE is read (60_exceptions.md, "Nothing else raises an error"). That an engine turn beside an idle block, or an
empty agenda there, is a step at all is the model's choice (log entries 2 and 4). -/
def Obligations.ConsistentStepsComplete : Prop :=
  ∀ s : State, Consistent s → (∀ a, s.agenda.head? = some (.bus a) → ∃ T, busTransaction a = .ok T) →
    ∃ t, step s = .next t ∧ Consistent t

/-- A step from a state that breaks rule R36 faults rather than continues (60_exceptions.md section 1), whatever turn is next:
an ERRCODE above 4, for one. -/
def Obligations.BrokenStatesFault : Prop :=
  (∀ s : State, consistent s = false → step s = .fault .brokenInvariant) ∧
  (∀ s : State, 5 ≤ s.errcode.toNat → step s = .fault .brokenInvariant)

/-- The state after reset, element by element (the values of rule R250); it satisfies rule R36. -/
def Obligations.ResetState : Prop :=
  Consistent State.reset ∧
  (∀ i : Fin 16, State.reset.msg[i] = 0#32) ∧ (∀ i : Fin 8, State.reset.hash[i] = IV[i]) ∧
  State.reset.phase = .idle ∧ (∀ i : Fin 64, State.reset.w[i] = none) ∧
  State.reset.work = ⟨none, none, none, none, none, none, none, none⟩ ∧
  State.reset.valid = false ∧ State.reset.t = 0#7 ∧ State.reset.err = false ∧ State.reset.errcode = 0#4

/-- Rule R250: reset as one step, between any two others: every element takes its reset value whatever the block was doing, and
the reads after it give 0 for STATUS and IV for HASH. -/
def Obligations.ResetEvent : Prop :=
  ∀ (s : State) (rest : List Turn), Consistent s → s.agenda = .reset :: rest →
    ∃ t, step s = .next t ∧
      (∀ i : Fin 16, t.msg[i] = 0#32) ∧ (∀ i : Fin 8, t.hash[i] = IV[i]) ∧ t.phase = .idle ∧
      (∀ i : Fin 64, t.w[i] = none) ∧ t.work = ⟨none, none, none, none, none, none, none, none⟩ ∧
      t.valid = false ∧ t.t = 0#7 ∧ t.err = false ∧ t.errcode = 0#4 ∧ t.agenda = rest ∧
      locationValue t 0x19#5 = 0x00000000#32 ∧ ∀ i : Fin 8, locationValue t (BitVec.ofNat 5 (0x10 + i.val)) = IV[i]

/-- Rule R238: while idle nothing in the block changes without the host or reset: an engine turn, or no turn at all, passes.
That such a turn is a step at all is the model's choice (log entries 2 and 4). -/
def Obligations.IdleBlockRests : Prop :=
  ∀ s : State, Consistent s → s.phase = .idle → engineTurn s = true → step s = .next { s with agenda := s.agenda.tail }

/-- A step runs the decoded instruction: where the next turn is the host's and its word decodes to i, the step is exec of i, the
turn taken off the agenda (rules R55, R70, R74). -/
def Obligations.StepRunsTransaction : Prop :=
  ∀ (s : State) (T : TxnWord) (rest : List Turn) (i : Instr),
    Consistent s → s.agenda = .host T :: rest → decode T = .ok i → step s = exec i { s with agenda := rest }

/-- Placing a transaction given as a number makes the very next step run it (rule R71; that it is placed at the head of the
agenda is the model's choice, log entry 2). -/
def Obligations.PlacedTransactionRunsNext : Prop :=
  ∀ (s : State) (w : Nat) (i : Instr), Consistent s → decodeTableWord 40 w = some i →
    step (s.withFetchWord 40 w) = exec i s

/-- The bus adapter (rule R54, decision D28): an aligned 32-bit access at CORE_BASE + 4·ADDR is the port transaction of location
ADDR; a narrower access, a misaligned one and one outside the port are refused. The names of the refusals are the model's
(log entry 7). -/
def Obligations.BusAccessReachesLocation : Prop :=
  ∀ (s : State) (acc : BusAccess) (rest : List Turn), Consistent s → s.agenda = .bus acc :: rest →
    (∀ a : PortAddr, acc.bytes = 4 → acc.byteAddr = Config.coreBase + 4 * a.toNat →
      step s = step { s with agenda := .host (mkTxn acc.write a acc.data) :: rest }) ∧
    (acc.bytes < 4 → step s = .refused .busWidth) ∧
    (acc.bytes = 4 → acc.byteAddr % 4 ≠ 0 → step s = .refused .busMisaligned) ∧
    (acc.bytes = 4 → acc.byteAddr % 4 = 0 →
      acc.byteAddr < Config.coreBase ∨ Config.coreBase + 4 * 32 ≤ acc.byteAddr → step s = .refused .busOutsidePort)

/-- Instances do not communicate (rules R201 and R236): a step of one instance is its own step, and leaves every other instance
as it is. -/
def Obligations.InstancesAreIndependent : Prop :=
  (∀ (S : Instances) (k : Fin Config.nCores) (s' : State), step S.cores[k] = .next s' →
    ∃ S', S.stepAt k = .next S' ∧ S'.cores[k] = s' ∧ ∀ j : Fin Config.nCores, j ≠ k → S'.cores[j] = S.cores[j]) ∧
  (∀ k : Fin Config.nCores, Instances.reset.cores[k] = State.reset) ∧ 1 ≤ Config.nCores

/-! ### The host's duties -/

/-- Rule R191: the number of blocks is the ceiling of (L + 9) / 64, by either of the rule's formulas, with its boundary values,
which the spec marks as its inference. -/
def Obligations.BlockCountIsCeiling : Prop :=
  (∀ L : Nat, L + 9 ≤ 64 * blockCount L ∧ 64 * blockCount L < L + 9 + 64 ∧ blockCount L = (L + 72) / 64 ∧
    (blockCount L = 1 ↔ L ≤ 55) ∧ (blockCount L = 2 ↔ 56 ≤ L ∧ L ≤ 119)) ∧
  [0, 1, 55, 56, 63, 64, 119, 120].map blockCount = [1, 1, 1, 2, 2, 2, 2, 3]

/-- Rule R193 (and the layout of rule R190): a framed message is a whole number of blocks long: the input, the byte 0x80, zero
bytes, and the length field in exactly the last eight bytes. -/
def Obligations.FrameLayout : Prop :=
  ∀ input : List Byte,
    (frame input).length = 64 * blockCount input.length ∧
    (∀ k, k < input.length → (frame input)[k]? = input[k]?) ∧
    (frame input)[input.length]? = some 0x80#8 ∧
    (∀ k, input.length < k → k < 64 * blockCount input.length - 8 → (frame input)[k]? = some 0#8) ∧
    (frame input).drop (64 * blockCount input.length - 8) = lengthField input.length

/-- Rules R192 and R196: the host frames an input of fewer than 2^61 bytes, and byte j of the last eight is bits
[63 - 8j : 56 - 8j] of L·8, and the last two words of the final block are its upper and lower halves, which the spec marks as
its inference; a longer input it does not frame, and there are no blocks and no digest of it. -/
def Obligations.LengthFieldWords : Prop :=
  (∀ input : List Byte, input.length < 2 ^ 61 →
    frameInput input = some (frame input) ∧
    (∀ j, j < 8 → (frame input)[64 * blockCount input.length - 8 + j]? =
      some (BitVec.ofNat 8 (input.length * 8 / 2 ^ (56 - 8 * j)))) ∧
    (packBlock (frame input) (blockCount input.length - 1))[14] = BitVec.ofNat 32 (input.length * 8 / 2 ^ 32) ∧
    (packBlock (frame input) (blockCount input.length - 1))[15] = BitVec.ofNat 32 (input.length * 8)) ∧
  ∀ input : List Byte, 2 ^ 61 ≤ input.length → frameInput input = none ∧ blocksOf input = none ∧ digest input = none

/-- Rule R194: the empty input is one block: 0x80, then zeros; its words, which the spec marks as its inference. -/
def Obligations.EmptyInputBlock : Prop :=
  frame [] = 0x80#8 :: List.replicate 63 0#8 ∧
  blocksOf [] = some [#v[0x80000000#32, 0#32, 0#32, 0#32, 0#32, 0#32, 0#32, 0#32,
    0#32, 0#32, 0#32, 0#32, 0#32, 0#32, 0#32, 0#32]]

/-- Rule R195, whose case split the spec marks as its inference: where L mod 64 is 56 to 63 the block of the last data bytes is
completed by the terminator and zero bytes, and the final block is 56 zero bytes and the length; where L mod 64 is 0 and L
is not, the terminator is the first byte of the final block, which also holds the length. -/
def Obligations.SpillBlock : Prop :=
  ∀ input : List Byte,
    (56 ≤ input.length % 64 →
      blockCount input.length = input.length / 64 + 2 ∧
      (frame input).take (64 * (input.length / 64 + 1)) =
        input ++ 0x80#8 :: List.replicate (63 - input.length % 64) 0#8 ∧
      (frame input).drop (64 * (input.length / 64 + 1)) = List.replicate 56 0#8 ++ lengthField input.length) ∧
    (input.length % 64 = 0 → 0 < input.length →
      blockCount input.length = input.length / 64 + 1 ∧
      (frame input).drop (64 * (input.length / 64)) = 0x80#8 :: List.replicate 55 0#8 ++ lengthField input.length)

/-- Rule R51: message words are big-endian, byte by byte. -/
def Obligations.MessageWordsBigEndian : Prop :=
  ∀ (B : List Byte), B.length = 64 → ∀ i : Fin 16,
    (packBlock B 0)[i].extractLsb' 24 8 = byteAt B (4 * i.val) ∧
    (packBlock B 0)[i].extractLsb' 16 8 = byteAt B (4 * i.val + 1) ∧
    (packBlock B 0)[i].extractLsb' 8 8 = byteAt B (4 * i.val + 2) ∧
    (packBlock B 0)[i].extractLsb' 0 8 = byteAt B (4 * i.val + 3)

/-- Rule R52: digest bytes are big-endian per word, words in order, and serializing then deserializing gives the words back. -/
def Obligations.DigestBytesBigEndian : Prop :=
  ∀ H : HashState,
    (digestBytes H).length = 32 ∧
    (∀ (i : Fin 8) (j : Fin 4), (digestBytes H)[4 * i.val + j.val]? = some (H[i].extractLsb' (24 - 8 * j.val) 8)) ∧
    hashOfBytes (digestBytes H) = H

/-- Rule R199: the digest as text is 64 lowercase hexadecimal characters, two to a byte, most significant nibble first, an order
that the spec marks as its inference. -/
def Obligations.DigestText : Prop :=
  ∀ H : HashState,
    (hexText (digestBytes H)).length = 64 ∧
    (List.range 16).map (fun n => hexDigit (BitVec.ofNat 4 n)) = "0123456789abcdef".toList ∧
    ∀ (k : Nat) (b : Byte), (digestBytes H)[k]? = some b →
      (hexText (digestBytes H))[2 * k]? = some (hexDigit (BitVec.ofNat 4 (b.toNat / 16))) ∧
      (hexText (digestBytes H))[2 * k + 1]? = some (hexDigit (BitVec.ofNat 4 (b.toNat % 16)))
end

