-- ==== Sys2Proof/Laws/Decode.lean ====
section
/-! SUPPORT. The fields of a transaction word made of three fields, every word as such a word, and the rows in terms of WE
and ADDR. -/

namespace Sys2Proof

/-- A transaction word bit by bit (rule R71). -/
theorem getLsbD_mkTxn (we : Bool) (a : PortAddr) (d : Word) (i : Nat) :
    (mkTxn we a d).getLsbD i =
      if i < 32 then d.getLsbD i else if i < 37 then a.getLsbD (i - 32) else (decide (i = 37) && we) := by
  have h : (mkTxn we a d).getLsbD i = BitVec.getLsbD (w := 1 + 5 + 32) (BitVec.ofBool we ++ a ++ d) i := rfl
  rw [h, BitVec.getLsbD_append, BitVec.getLsbD_append, BitVec.getLsbD_ofBool]
  by_cases h1 : i < 32
  · simp [h1]
  · by_cases h2 : i < 37
    · have h3 : i - 32 < 5 := by omega
      simp [h1, h2, h3]
    · have h3 : ¬ i - 32 < 5 := by omega
      have h4 : (i - 32 - 5 = 0) = (i = 37) := by
        apply propext; omega
      simp [h1, h2, h3, h4]

@[simp] theorem we_mkTxn (we : Bool) (a : PortAddr) (d : Word) : (mkTxn we a d).we = we := by
  simp only [TxnWord.we, getLsbD_mkTxn]; simp

@[simp] theorem addr_mkTxn (we : Bool) (a : PortAddr) (d : Word) : (mkTxn we a d).addr = a := by
  apply BitVec.eq_of_getLsbD_eq
  intro i hi
  have h : 32 + i < 37 := by omega
  simp only [TxnWord.addr, BitVec.getLsbD_extractLsb', getLsbD_mkTxn]
  simp [hi, h]

@[simp] theorem wdata_mkTxn (we : Bool) (a : PortAddr) (d : Word) : (mkTxn we a d).wdata = d := by
  apply BitVec.eq_of_getLsbD_eq
  intro i hi
  simp only [TxnWord.wdata, BitVec.getLsbD_extractLsb', getLsbD_mkTxn]
  simp [hi]

/-- A field of ADDR, taken from the word or from ADDR. -/
theorem extract_mkTxn (we : Bool) (a : PortAddr) (d : Word) (n : Nat) (hn : n ≤ 5) :
    (mkTxn we a d).extractLsb' 32 n = a.extractLsb' 0 n := by
  apply BitVec.eq_of_getLsbD_eq
  intro i hi
  have h : 32 + i < 37 := by omega
  simp only [BitVec.getLsbD_extractLsb', getLsbD_mkTxn]
  simp [h]

/-- The MSG index of a location below 0x10 (rule R73). -/
theorem msgIndex_mkTxn (we : Bool) {a : PortAddr} (d : Word) (h : a.toNat < 16) :
    (mkTxn we a d).msgIndex = ⟨a.toNat, h⟩ := by
  rw [TxnWord.msgIndex, extract_mkTxn _ _ _ _ (by omega)]
  revert a
  decide

/-- The HASH index of a location from 0x10 to 0x17 (rule R73). -/
theorem hashIndex_mkTxn (we : Bool) {a : PortAddr} (d : Word) (h : a.toNat < 24) (h' : 16 ≤ a.toNat) :
    (mkTxn we a d).hashIndex = ⟨a.toNat - 16, by omega⟩ := by
  rw [TxnWord.hashIndex, extract_mkTxn _ _ _ _ (by omega)]
  revert a
  decide

/-- Every transaction word is made of its three fields (rule R71). -/
theorem mkTxn_fields (T : TxnWord) : mkTxn T.we T.addr T.wdata = T := by
  apply BitVec.eq_of_getLsbD_eq
  intro i hi
  rw [getLsbD_mkTxn]
  simp only [TxnWord.we, TxnWord.addr, TxnWord.wdata, BitVec.getLsbD_extractLsb']
  by_cases h1 : i < 32
  · simp [h1]
  · by_cases h2 : i < 37
    · have h3 : i - 32 < 5 := by omega
      have h4 : 32 + (i - 32) = i := by omega
      simp [h1, h2, h3, h4]
    · have h4 : i = 37 := by omega
      subst h4; simp

/-- Whether a row covers a word depends on WE and ADDR alone (rule R74), for a mask and a match that say nothing of
WDATA. -/
theorem covers_mkTxn (n : RowName) (mwe fwe we : Bool) (ma fa a : PortAddr) (d : Word) :
    Row.covers ⟨n, mkTxn mwe ma 0#32, mkTxn fwe fa 0#32⟩ (mkTxn we a d) = ((we && mwe) == fwe && (a &&& ma) == fa) := by
  have h : mkTxn we a d &&& mkTxn mwe ma 0#32 = mkTxn (we && mwe) (a &&& ma) 0#32 := by
    apply BitVec.eq_of_getLsbD_eq
    intro i _
    simp only [BitVec.getLsbD_and, getLsbD_mkTxn]
    by_cases h1 : i < 32
    · simp [h1]
    · by_cases h2 : i < 37
      · simp [h1, h2]
      · by_cases h3 : i = 37 <;> simp [h1, h2, h3]
  rw [Row.covers, h, Bool.eq_iff_iff]
  simp only [beq_iff_eq, Bool.and_eq_true]
  constructor
  · intro e
    exact ⟨by simpa using congrArg TxnWord.we e, by simpa using congrArg TxnWord.addr e⟩
  · rintro ⟨rfl, rfl⟩; rfl

/-- The rows, their masks and matches taken apart into WE and ADDR. -/
theorem opcodeRows_eq : opcodeRows =
    [ ⟨.msgRd, mkTxn true 0x10#5 0#32, mkTxn false 0x00#5 0#32⟩,
      ⟨.msgWr, mkTxn true 0x10#5 0#32, mkTxn true 0x00#5 0#32⟩,
      ⟨.hashRd, mkTxn true 0x18#5 0#32, mkTxn false 0x10#5 0#32⟩,
      ⟨.hashWr, mkTxn true 0x18#5 0#32, mkTxn true 0x10#5 0#32⟩,
      ⟨.ctrlRd, mkTxn true 0x1F#5 0#32, mkTxn false 0x18#5 0#32⟩,
      ⟨.ctrlWr, mkTxn true 0x1F#5 0#32, mkTxn true 0x18#5 0#32⟩,
      ⟨.statusRd, mkTxn true 0x1F#5 0#32, mkTxn false 0x19#5 0#32⟩,
      ⟨.statusWr, mkTxn true 0x1F#5 0#32, mkTxn true 0x19#5 0#32⟩,
      ⟨.rsvRdLo, mkTxn true 0x1E#5 0#32, mkTxn false 0x1A#5 0#32⟩,
      ⟨.rsvWrLo, mkTxn true 0x1E#5 0#32, mkTxn true 0x1A#5 0#32⟩,
      ⟨.rsvRdHi, mkTxn true 0x1C#5 0#32, mkTxn false 0x1C#5 0#32⟩,
      ⟨.rsvWrHi, mkTxn true 0x1C#5 0#32, mkTxn true 0x1C#5 0#32⟩ ] := by decide

/-- The name of the row that WE and ADDR select (rule R74's columns). -/
def rowOf (we : Bool) (a : PortAddr) : RowName :=
  if a.toNat < 0x10 then if we then .msgWr else .msgRd
  else if a.toNat < 0x18 then if we then .hashWr else .hashRd
  else if a.toNat = 0x18 then if we then .ctrlWr else .ctrlRd
  else if a.toNat = 0x19 then if we then .statusWr else .statusRd
  else if a.toNat < 0x1C then if we then .rsvWrLo else .rsvRdLo
  else if we then .rsvWrHi else .rsvRdHi

/-- The location classes of the register map (rule R72). -/
theorem location_cases (a : PortAddr) :
    a.toNat < 16 ∨ (16 ≤ a.toNat ∧ a.toNat < 24) ∨ a = 0x18#5 ∨ a = 0x19#5 ∨ (26 ≤ a.toNat ∧ a.toNat < 28) ∨
      28 ≤ a.toNat := by
  revert a; decide

theorem rowOf_msg (we : Bool) {a : PortAddr} (h : a.toNat < 16) : rowOf we a = if we then .msgWr else .msgRd := by
  simp [rowOf, h]

theorem rowOf_hash (we : Bool) {a : PortAddr} (h : 16 ≤ a.toNat) (h' : a.toNat < 24) :
    rowOf we a = if we then .hashWr else .hashRd := by
  simp [rowOf, h', show ¬ a.toNat < 16 by omega]

theorem rowOf_ctrl (we : Bool) : rowOf we 0x18#5 = if we then .ctrlWr else .ctrlRd := rfl

theorem rowOf_status (we : Bool) : rowOf we 0x19#5 = if we then .statusWr else .statusRd := rfl

theorem rowOf_reservedLo (we : Bool) {a : PortAddr} (h : 26 ≤ a.toNat) (h' : a.toNat < 28) :
    rowOf we a = if we then .rsvWrLo else .rsvRdLo := by
  simp [rowOf, show ¬ a.toNat < 16 by omega, show ¬ a.toNat < 24 by omega, show ¬ a.toNat = 24 by omega,
    show ¬ a.toNat = 25 by omega, h']

theorem rowOf_reservedHi (we : Bool) {a : PortAddr} (h : 28 ≤ a.toNat) :
    rowOf we a = if we then .rsvWrHi else .rsvRdHi := by
  simp [rowOf, show ¬ a.toNat < 16 by omega, show ¬ a.toNat < 24 by omega, show ¬ a.toNat = 24 by omega,
    show ¬ a.toNat = 25 by omega, show ¬ a.toNat < 28 by omega]

/-- WE and ADDR select one row, whatever the data (rule R74). -/
theorem find_row (we : Bool) (a : PortAddr) (d : Word) :
    ∃ r, opcodeRows.find? (fun r => r.covers (mkTxn we a d)) = some r ∧ r.name = rowOf we a := by
  rw [opcodeRows_eq]
  simp only [List.find?_cons, List.find?_nil, covers_mkTxn]
  revert we a
  decide

/-- The decoder finds the row by WE and ADDR. -/
theorem decode_mkTxn (we : Bool) (a : PortAddr) (d : Word) :
    decode (mkTxn we a d) = .ok ((rowOf we a).operands (mkTxn we a d)) := by
  obtain ⟨r, hr, hn⟩ := find_row we a d
  simp only [decode, hr, hn]

/-- The decoder on any word (rule R74: it is total). -/
theorem decode_eq (T : TxnWord) : decode T = .ok ((rowOf T.we T.addr).operands T) := by
  have h := decode_mkTxn T.we T.addr T.wdata
  rwa [mkTxn_fields] at h

end Sys2Proof
end

