-- ==== Sys2Proof/Laws/State.lean ====
section
/-! SUPPORT. For each named update of State, what it leaves in each field. -/

namespace Sys2Proof.Machine

@[simp] theorem respond_msg (v : Word) (s : State) : (respond v s).msg = s.msg := rfl
@[simp] theorem respond_hash (v : Word) (s : State) : (respond v s).hash = s.hash := rfl
@[simp] theorem respond_phase (v : Word) (s : State) : (respond v s).phase = s.phase := rfl
@[simp] theorem respond_w (v : Word) (s : State) : (respond v s).w = s.w := rfl
@[simp] theorem respond_work (v : Word) (s : State) : (respond v s).work = s.work := rfl
@[simp] theorem respond_valid (v : Word) (s : State) : (respond v s).valid = s.valid := rfl
@[simp] theorem respond_t (v : Word) (s : State) : (respond v s).t = s.t := rfl
@[simp] theorem respond_err (v : Word) (s : State) : (respond v s).err = s.err := rfl
@[simp] theorem respond_errcode (v : Word) (s : State) : (respond v s).errcode = s.errcode := rfl
@[simp] theorem respond_rdata (v : Word) (s : State) : (respond v s).rdata = some v := rfl
@[simp] theorem respond_agenda (v : Word) (s : State) : (respond v s).agenda = s.agenda := rfl

@[simp] theorem respondNothing_msg (s : State) : (respondNothing s).msg = s.msg := rfl
@[simp] theorem respondNothing_hash (s : State) : (respondNothing s).hash = s.hash := rfl
@[simp] theorem respondNothing_phase (s : State) : (respondNothing s).phase = s.phase := rfl
@[simp] theorem respondNothing_w (s : State) : (respondNothing s).w = s.w := rfl
@[simp] theorem respondNothing_work (s : State) : (respondNothing s).work = s.work := rfl
@[simp] theorem respondNothing_valid (s : State) : (respondNothing s).valid = s.valid := rfl
@[simp] theorem respondNothing_t (s : State) : (respondNothing s).t = s.t := rfl
@[simp] theorem respondNothing_err (s : State) : (respondNothing s).err = s.err := rfl
@[simp] theorem respondNothing_errcode (s : State) : (respondNothing s).errcode = s.errcode := rfl
@[simp] theorem respondNothing_rdata (s : State) : (respondNothing s).rdata = none := rfl
@[simp] theorem respondNothing_agenda (s : State) : (respondNothing s).agenda = s.agenda := rfl

@[simp] theorem clearError_msg (s : State) : (clearError s).msg = s.msg := rfl
@[simp] theorem clearError_hash (s : State) : (clearError s).hash = s.hash := rfl
@[simp] theorem clearError_phase (s : State) : (clearError s).phase = s.phase := rfl
@[simp] theorem clearError_w (s : State) : (clearError s).w = s.w := rfl
@[simp] theorem clearError_work (s : State) : (clearError s).work = s.work := rfl
@[simp] theorem clearError_valid (s : State) : (clearError s).valid = s.valid := rfl
@[simp] theorem clearError_t (s : State) : (clearError s).t = s.t := rfl
@[simp] theorem clearError_err (s : State) : (clearError s).err = false := rfl
@[simp] theorem clearError_errcode (s : State) : (clearError s).errcode = 0#4 := rfl
@[simp] theorem clearError_rdata (s : State) : (clearError s).rdata = s.rdata := rfl
@[simp] theorem clearError_agenda (s : State) : (clearError s).agenda = s.agenda := rfl

@[simp] theorem setMsg_msg (i : Fin 16) (d : Word) (s : State) : (setMsg i d s).msg = s.msg.set i d := rfl
@[simp] theorem setMsg_hash (i : Fin 16) (d : Word) (s : State) : (setMsg i d s).hash = s.hash := rfl
@[simp] theorem setMsg_phase (i : Fin 16) (d : Word) (s : State) : (setMsg i d s).phase = s.phase := rfl
@[simp] theorem setMsg_w (i : Fin 16) (d : Word) (s : State) : (setMsg i d s).w = s.w := rfl
@[simp] theorem setMsg_work (i : Fin 16) (d : Word) (s : State) : (setMsg i d s).work = s.work := rfl
@[simp] theorem setMsg_valid (i : Fin 16) (d : Word) (s : State) : (setMsg i d s).valid = s.valid := rfl
@[simp] theorem setMsg_t (i : Fin 16) (d : Word) (s : State) : (setMsg i d s).t = s.t := rfl
@[simp] theorem setMsg_err (i : Fin 16) (d : Word) (s : State) : (setMsg i d s).err = s.err := rfl
@[simp] theorem setMsg_errcode (i : Fin 16) (d : Word) (s : State) : (setMsg i d s).errcode = s.errcode := rfl
@[simp] theorem setMsg_rdata (i : Fin 16) (d : Word) (s : State) : (setMsg i d s).rdata = s.rdata := rfl
@[simp] theorem setMsg_agenda (i : Fin 16) (d : Word) (s : State) : (setMsg i d s).agenda = s.agenda := rfl

@[simp] theorem initHash_msg (s : State) : (initHash s).msg = s.msg := rfl
@[simp] theorem initHash_hash (s : State) : (initHash s).hash = IV := rfl
@[simp] theorem initHash_phase (s : State) : (initHash s).phase = s.phase := rfl
@[simp] theorem initHash_w (s : State) : (initHash s).w = s.w := rfl
@[simp] theorem initHash_work (s : State) : (initHash s).work = s.work := rfl
@[simp] theorem initHash_valid (s : State) : (initHash s).valid = false := rfl
@[simp] theorem initHash_t (s : State) : (initHash s).t = s.t := rfl
@[simp] theorem initHash_err (s : State) : (initHash s).err = s.err := rfl
@[simp] theorem initHash_errcode (s : State) : (initHash s).errcode = s.errcode := rfl
@[simp] theorem initHash_rdata (s : State) : (initHash s).rdata = s.rdata := rfl
@[simp] theorem initHash_agenda (s : State) : (initHash s).agenda = s.agenda := rfl

@[simp] theorem startBlock_msg (s : State) : (startBlock s).msg = s.msg := rfl
@[simp] theorem startBlock_hash (s : State) : (startBlock s).hash = s.hash := rfl
@[simp] theorem startBlock_phase (s : State) : (startBlock s).phase = .run := rfl
@[simp] theorem startBlock_w (s : State) : (startBlock s).w = loadSchedule s.msg := rfl
@[simp] theorem startBlock_work (s : State) : (startBlock s).work = (seedVars s.hash).store := rfl
@[simp] theorem startBlock_valid (s : State) : (startBlock s).valid = s.valid := rfl
@[simp] theorem startBlock_t (s : State) : (startBlock s).t = 0#7 := rfl
@[simp] theorem startBlock_err (s : State) : (startBlock s).err = s.err := rfl
@[simp] theorem startBlock_errcode (s : State) : (startBlock s).errcode = s.errcode := rfl
@[simp] theorem startBlock_rdata (s : State) : (startBlock s).rdata = s.rdata := rfl
@[simp] theorem startBlock_agenda (s : State) : (startBlock s).agenda = s.agenda := rfl

@[simp] theorem resetBlock_msg (s : State) : (resetBlock s).msg = Vector.replicate 16 0#32 := rfl
@[simp] theorem resetBlock_hash (s : State) : (resetBlock s).hash = IV := rfl
@[simp] theorem resetBlock_phase (s : State) : (resetBlock s).phase = .idle := rfl
@[simp] theorem resetBlock_w (s : State) : (resetBlock s).w = Vector.replicate 64 none := rfl
@[simp] theorem resetBlock_work (s : State) : (resetBlock s).work = Work.empty := rfl
@[simp] theorem resetBlock_valid (s : State) : (resetBlock s).valid = false := rfl
@[simp] theorem resetBlock_t (s : State) : (resetBlock s).t = 0#7 := rfl
@[simp] theorem resetBlock_err (s : State) : (resetBlock s).err = false := rfl
@[simp] theorem resetBlock_errcode (s : State) : (resetBlock s).errcode = 0#4 := rfl
@[simp] theorem resetBlock_rdata (s : State) : (resetBlock s).rdata = none := rfl
@[simp] theorem resetBlock_agenda (s : State) : (resetBlock s).agenda = s.agenda := rfl

@[simp] theorem recordError_msg (e : ErrorName) (s : State) : (recordError e s).msg = s.msg := by
  unfold recordError; split <;> rfl
@[simp] theorem recordError_hash (e : ErrorName) (s : State) : (recordError e s).hash = s.hash := by
  unfold recordError; split <;> rfl
@[simp] theorem recordError_phase (e : ErrorName) (s : State) : (recordError e s).phase = s.phase := by
  unfold recordError; split <;> rfl
@[simp] theorem recordError_w (e : ErrorName) (s : State) : (recordError e s).w = s.w := by
  unfold recordError; split <;> rfl
@[simp] theorem recordError_work (e : ErrorName) (s : State) : (recordError e s).work = s.work := by
  unfold recordError; split <;> rfl
@[simp] theorem recordError_valid (e : ErrorName) (s : State) : (recordError e s).valid = s.valid := by
  unfold recordError; split <;> rfl
@[simp] theorem recordError_t (e : ErrorName) (s : State) : (recordError e s).t = s.t := by
  unfold recordError; split <;> rfl
@[simp] theorem recordError_rdata (e : ErrorName) (s : State) : (recordError e s).rdata = s.rdata := by
  unfold recordError; split <;> rfl
@[simp] theorem recordError_agenda (e : ErrorName) (s : State) : (recordError e s).agenda = s.agenda := by
  unfold recordError; split <;> rfl

/-- ERR is set by every `recordError` (rule R220). -/
@[simp] theorem recordError_err (e : ErrorName) (s : State) : (recordError e s).err = true := by
  unfold recordError; split <;> simp_all

/-- ERRCODE takes the code only where no error was recorded before (rule R220). -/
@[simp] theorem recordError_errcode (e : ErrorName) (s : State) :
    (recordError e s).errcode = if s.err then s.errcode else e.code := by
  unfold recordError; split <;> simp_all

end Sys2Proof.Machine
end

