-- ==== Sys2Proof/Laws/Storage.lean ====
section
/-! SUPPORT. The schedule storage and the working variables: what each of their operations leaves in each element. -/

namespace Sys2Proof.Machine

theorem scheduleWord_of_lt (w : Vector (Option Word) 64) {n : Nat} (h : n < 64) : scheduleWord w n = w[n] := by
  simp [scheduleWord, h]

@[simp] theorem getElem_loadSchedule (msg : MsgBlock) (i : Nat) (h : i < 64) :
    (loadSchedule msg)[i] = if h' : i < 16 then some (msg[i]'h') else none := by
  simp [loadSchedule]

theorem getElem_storeExpanded (w : Vector (Option Word) 64) (t : Fin 64) (wt : Word) (i : Nat) (h : i < 64) :
    (storeExpanded w t wt)[i] = if 16 ≤ t.val ∧ i = t.val then some wt else w[i] := by
  unfold storeExpanded
  by_cases ht : t.val < 16
  · have : ¬ 16 ≤ t.val := by omega
    simp [ht, this]
  · have h16 : 16 ≤ t.val := by omega
    rw [if_neg ht, Vector.getElem_set]
    by_cases hi : i = t.val
    · simp [hi, h16]
    · have : ¬ t.val = i := fun e => hi e.symm
      simp [this, hi]

@[simp] theorem words_store (v : Vars) : v.store.words = some v := rfl

@[simp] theorem words_empty : Work.empty.words = none := rfl

/-- a..h hold words exactly when they are eight words stored. -/
theorem words_eq_some {x : Work} {v : Vars} : x.words = some v ↔ x = v.store := by
  constructor
  · intro h
    rcases x with ⟨a, b, c, d, e, f, g, h'⟩
    cases a <;> cases b <;> cases c <;> cases d <;> cases e <;> cases f <;> cases g <;> cases h' <;>
      simp [Work.words] at h
    subst h; rfl
  · rintro rfl; rfl

/-- The schedule word of a round t below 16. -/
theorem expandedWord_of_lt (w : Vector (Option Word) 64) {t : Nat} (h : t < 16) : expandedWord w t = w[t] := by
  simp [expandedWord, h, scheduleWord_of_lt w (by omega : t < 64)]

/-- The schedule word of a round t from 16 to 63, where its four operands are words. -/
theorem expandedWord_of_ge {w : Vector (Option Word) 64} {t : Nat} {w2 w7 w15 w16 : Word} (h : 16 ≤ t) (ht : t < 64)
    (h2 : w[t - 2] = some w2) (h7 : w[t - 7] = some w7) (h15 : w[t - 15] = some w15) (h16 : w[t - 16] = some w16) :
    expandedWord w t = some (expandWord w2 w7 w15 w16) := by
  have hlt : ¬ t < 16 := by omega
  rw [expandedWord, if_neg hlt, scheduleWord_of_lt w (by omega), scheduleWord_of_lt w (by omega),
    scheduleWord_of_lt w (by omega), scheduleWord_of_lt w (by omega), h2, h7, h15, h16]

/-- Rule R36 for an idle block. -/
theorem idleStorageOk_iff {s : State} :
    idleStorageOk s = true ↔ s.t = 0#7 ∧ (∀ i : Fin 64, s.w[i] = none) ∧ s.work = Work.empty := by
  simp [idleStorageOk, and_assoc]

/-- Rule R36 for a running block. -/
theorem runStorageOk_iff {s : State} :
    runStorageOk s = true ↔ s.t.toNat ≤ 64 ∧ (∃ v, s.work = Vars.store v) ∧
      ∀ i : Fin 64, (s.w[i].isSome = true ↔ i.val < max 16 s.t.toNat) := by
  simp only [runStorageOk, Bool.and_eq_true, decide_eq_true_eq, and_assoc, Option.isSome_iff_exists, words_eq_some]
  refine and_congr_right fun _ => and_congr_right fun _ => forall_congr' fun i => ?_
  rw [Bool.eq_iff_iff, decide_eq_true_eq, Option.isSome_iff_exists]

/-- Rule R36 for ERR and ERRCODE. -/
theorem errorFieldsOk_iff {s : State} :
    errorFieldsOk s = true ↔ (s.err = true ↔ s.errcode ≠ 0#4) ∧ s.errcode.toNat ≤ 4 := by
  simp only [errorFieldsOk, Bool.and_eq_true, beq_iff_eq, decide_eq_true_eq]
  rw [Bool.eq_iff_iff, decide_eq_true_eq]

/-- Rule R36 of an idle state. -/
theorem consistent_idle {s : State} (h : s.phase = .idle) :
    consistent s = true ↔ errorFieldsOk s = true ∧ idleStorageOk s = true := by
  simp [consistent, h]

/-- Rule R36 of a running state. -/
theorem consistent_run {s : State} (h : s.phase = .run) :
    consistent s = true ↔ errorFieldsOk s = true ∧ runStorageOk s = true := by
  simp [consistent, h]

/-- Rule R36 says nothing of the response and of the turns to come. -/
theorem consistent_environment (s : State) (r : Option Word) (l : List Turn) :
    consistent { s with rdata := r, agenda := l } = consistent s := rfl

end Sys2Proof.Machine
end

