-- ==== Sys2Proof/Laws/Engine.lean ====
section
/-! SUPPORT. What an engine step can do, said once, and that it always completes where rule R36 holds. -/

namespace Sys2Proof.Machine

/-- An engine turn ends in a next state in one of three ways: it passes (idle), it is a round, it is the fold. -/
theorem engineStep_cases {s s' : State} (h : engineStep s = .next s') :
    (s.phase = .idle ∧ s' = s) ∨
    (s.phase = .run ∧ ∃ (ht : s.t.toNat < 64) (v : Vars) (wt : Word), s.work = v.store ∧
      expandedWord s.w s.t.toNat = some wt ∧
      s' = { s with w := storeExpanded s.w ⟨s.t.toNat, ht⟩ wt, work := (v.round K[s.t.toNat] wt).store, t := s.t + 1#7 }) ∨
    (s.phase = .run ∧ s.t.toNat = 64 ∧ ∃ v : Vars, s.work = v.store ∧
      s' = { s with hash := foldHash s.hash v, work := Work.empty, w := Vector.replicate 64 none, t := 0#7, phase := .idle, valid := true }) := by
  unfold engineStep at h
  split at h
  case h_1 hp => exact .inl ⟨hp, by simpa using h.symm⟩
  case h_2 hp =>
    split at h
    case isTrue ht =>
      refine .inr (.inl ⟨hp, ht, ?_⟩)
      unfold engineRound at h
      split at h
      · cases h
      case h_2 v hv =>
        split at h
        · cases h
        case h_2 wt hw =>
          exact ⟨v, wt, words_eq_some.1 hv, hw, by simpa using h.symm⟩
    case isFalse ht =>
      split at h
      case isTrue h64 =>
        refine .inr (.inr ⟨hp, h64, ?_⟩)
        unfold engineFold at h
        split at h
        · cases h
        case h_2 v hv => exact ⟨v, words_eq_some.1 hv, by simpa using h.symm⟩
      case isFalse => cases h

/-- A round on words: rule R130 as one record. -/
theorem engineStep_round {s : State} {v : Vars} {wt : Word} (hp : s.phase = .run) (ht : s.t.toNat < 64)
    (hv : s.work = v.store) (hw : expandedWord s.w s.t.toNat = some wt) :
    engineStep s = .next { s with w := storeExpanded s.w ⟨s.t.toNat, ht⟩ wt, work := (v.round K[s.t.toNat] wt).store, t := s.t + 1#7 } := by
  have hv' : s.work.words = some v := words_eq_some.2 hv
  simp only [engineStep, hp, ht, dif_pos, engineRound, hv', hw, Fin.getElem_fin]

/-- A fold on words: rule R131 as one record. -/
theorem engineStep_fold {s : State} {v : Vars} (hp : s.phase = .run) (ht : s.t.toNat = 64) (hv : s.work = v.store) :
    engineStep s = .next { s with hash := foldHash s.hash v, work := Work.empty, w := Vector.replicate 64 none, t := 0#7, phase := .idle, valid := true } := by
  have hv' : s.work.words = some v := words_eq_some.2 hv
  have h : ¬ s.t.toNat < 64 := by omega
  simp only [engineStep, hp]
  rw [dif_neg h, if_pos ht]
  simp only [engineFold, hv']

/-- No engine turn for an idle block (rule R128). -/
theorem engineStep_idle {s : State} (hp : s.phase = .idle) : engineStep s = .next s := by
  simp [engineStep, hp]

/-- Where the first max(16, t) schedule elements hold words, the schedule word of round t is one (rule R103). -/
theorem expandedWord_isSome {w : Vector (Option Word) 64} {t : Nat} (ht : t < 64)
    (hw : ∀ i : Fin 64, i.val < max 16 t → w[i].isSome = true) : ∃ wt, expandedWord w t = some wt := by
  have get : ∀ n, n < max 16 t → n < 64 → ∃ x, scheduleWord w n = some x := by
    intro n hn h64
    have := hw ⟨n, h64⟩ hn
    rw [scheduleWord_of_lt w h64]
    exact Option.isSome_iff_exists.1 this
  by_cases h : t < 16
  · obtain ⟨x, hx⟩ := get t (by omega) ht
    exact ⟨x, by simp [expandedWord, h, hx]⟩
  · obtain ⟨w2, h2⟩ := get (t - 2) (by omega) (by omega)
    obtain ⟨w7, h7⟩ := get (t - 7) (by omega) (by omega)
    obtain ⟨w15, h15⟩ := get (t - 15) (by omega) (by omega)
    obtain ⟨w16, h16⟩ := get (t - 16) (by omega) (by omega)
    exact ⟨expandWord w2 w7 w15 w16, by simp [expandedWord, h, h2, h7, h15, h16]⟩

end Sys2Proof.Machine
end

