-- ==== Sys2Proof/Laws/Port.lean ====
section
/-! SUPPORT. What the shared operations of the port can do, said once: `recordError` and the gate as records, and the two
shapes every transaction has. -/

namespace Sys2Proof.Machine

/-- `recordError` as one record: only ERR and ERRCODE can differ. -/
theorem recordError_eq (e : ErrorName) (s : State) :
    recordError e s = { s with err := true, errcode := if s.err then s.errcode else e.code } := by
  unfold recordError
  cases he : s.err
  · simp
  · simp [← he]

/-- The gate while the engine runs. -/
theorem gate_run (rule : State → State) {s : State} (h : s.phase = .run) : gate rule s = recordError .busyWrite s := by
  simp [gate, h]

/-- The gate while the engine is idle. -/
theorem gate_idle (rule : State → State) {s : State} (h : s.phase = .idle) : gate rule s = rule s := by
  simp [gate, h]

/-- RDATA of a read, row by row (43_host_port.md). -/
def readValue : Instr → State → Word
  | .msgRd i, s => s.msg[i]
  | .hashRd i, s => s.hash[i]
  | .statusRd, s => statusWord s
  | _, _ => 0#32

/-- The row's own rule of a write (43_host_port.md), the identity for a read. -/
def writeRule : Instr → State → State
  | .msgWr i d => setMsg i d
  | .hashWr _ _ => recordError .roWrite
  | .ctrlWr d => command d
  | .statusWr _ => recordError .roWrite
  | .rsvWrLo _ _ => recordError .rsvWrite
  | .rsvWrHi _ _ => recordError .rsvWrite
  | _ => id

/-- Every read transaction has one shape: the answer, and nothing else. -/
theorem exec_of_read {i : Instr} (h : i.isWrite = false) (s : State) : exec i s = .next (respond (readValue i s) s) := by
  cases i <;> first | rfl | cases h

/-- Every write transaction has one shape: the gate, then the row's rule. -/
theorem exec_of_write {i : Instr} (h : i.isWrite = true) (s : State) :
    exec i s = .next (gate (writeRule i) (respondNothing s)) := by
  cases i <;> first | rfl | cases h

/-- An accepted CTRL write with a reserved bit set. -/
theorem command_reserved {d : Word} (h : ctrlReserved d ≠ 0#29) (s : State) : command d s = recordError .ctrlRsv s := by
  simp [command, h]

/-- An accepted CTRL write with its reserved bits 0, as one record. -/
theorem command_eq {d : Word} (h : ctrlReserved d = 0#29) (s : State) :
    command d s =
      { s with
        err := if ctrlClrerr d then false else s.err
        errcode := if ctrlClrerr d then 0#4 else s.errcode
        hash := if ctrlInit d then IV else s.hash
        valid := if ctrlInit d then false else s.valid
        w := if ctrlNext d then loadSchedule s.msg else s.w
        work := if ctrlNext d then (seedVars (if ctrlInit d then IV else s.hash)).store else s.work
        t := if ctrlNext d then 0#7 else s.t
        phase := if ctrlNext d then .run else s.phase } := by
  unfold command
  cases ctrlClrerr d <;> cases ctrlInit d <;> cases ctrlNext d <;>
    simp [h, clearError, initHash, startBlock]

/-- No command touches MSG or the environment's fields. -/
theorem command_frame (d : Word) (s : State) :
    (command d s).msg = s.msg ∧ (command d s).rdata = s.rdata ∧ (command d s).agenda = s.agenda := by
  by_cases h : ctrlReserved d = 0#29
  · rw [command_eq h]; exact ⟨rfl, rfl, rfl⟩
  · rw [command_reserved h]; simp

end Sys2Proof.Machine
end

