-- ==== Sys2Proof/Laws/Turns.lean ====
section
/-! SUPPORT. What a step can do, said once. -/

namespace Sys2Proof.Machine

/-- The host's turn runs the instruction its word stands for: no word is rejected (rule R74). -/
theorem hostTurn_eq (T : TxnWord) (s : State) : hostTurn T s = exec ((rowOf T.we T.addr).operands T) s := by
  simp only [hostTurn, decode_eq]

/-- No transaction stops: each ends in a next state. -/
theorem exec_next (i : Instr) (s : State) : ∃ t, exec i s = .next t := by
  cases h : i.isWrite
  · exact ⟨_, exec_of_read h s⟩
  · exact ⟨_, exec_of_write h s⟩

/-- A step from a state that satisfies rule R36, with a turn on the agenda. -/
theorem step_turn {s : State} {x : Turn} {rest : List Turn} (hc : consistent s = true) (ha : s.agenda = x :: rest) :
    step s = takeTurn x { s with agenda := rest } := by
  simp only [step, advance, hc, if_true, ha]

/-- A step from a state that satisfies rule R36, with nothing on the agenda. -/
theorem step_empty {s : State} (hc : consistent s = true) (ha : s.agenda = []) : step s = engineStep s := by
  simp only [step, advance, hc, if_true, ha]

/-- A step from a state that breaks rule R36 (rule R227). -/
theorem step_broken {s : State} (hc : consistent s = false) : step s = .fault .brokenInvariant := by
  simp [step, advance, hc]

/-- A step ends in a next state only from a state that satisfies rule R36, and then in one of three ways: an engine step,
a host transaction, reset. -/
theorem step_cases {s s' : State} (h : step s = .next s') :
    consistent s = true ∧
      ((s.agenda = [] ∧ engineStep s = .next s') ∨
       (∃ rest, s.agenda = .engine :: rest ∧ engineStep { s with agenda := rest } = .next s') ∨
       (∃ T rest, s.agenda = .host T :: rest ∧ exec ((rowOf T.we T.addr).operands T) { s with agenda := rest } = .next s') ∨
       (∃ a T rest, s.agenda = .bus a :: rest ∧ busTransaction a = .ok T ∧
          exec ((rowOf T.we T.addr).operands T) { s with agenda := rest } = .next s') ∨
       (∃ rest, s.agenda = .reset :: rest ∧ s' = resetBlock { s with agenda := rest })) := by
  cases hc : consistent s with
  | false => rw [step_broken hc] at h; cases h
  | true =>
    refine ⟨rfl, ?_⟩
    cases ha : s.agenda with
    | nil => rw [step_empty hc ha] at h; exact .inl ⟨rfl, h⟩
    | cons x rest =>
      rw [step_turn hc ha] at h
      refine .inr ?_
      cases x with
      | engine => exact .inl ⟨rest, rfl, h⟩
      | host T =>
        rw [takeTurn, hostTurn_eq] at h
        exact .inr (.inl ⟨T, rest, rfl, h⟩)
      | bus a =>
        rw [takeTurn, busTurn] at h
        cases hb : busTransaction a with
        | error r => rw [hb] at h; cases h
        | ok T =>
          rw [hb] at h
          simp only [hostTurn_eq] at h
          exact .inr (.inr (.inl ⟨a, T, rest, rfl, hb, h⟩))
      | reset =>
        rw [takeTurn] at h
        exact .inr (.inr (.inr ⟨rest, rfl, by simpa using h.symm⟩))

/-- `runSteps` is the host's run of the machine. -/
theorem runSteps_eq_run (n : Nat) (s : State) : Host.Core.run Sys2Proof.core n s = runSteps n s := by
  induction n generalizing s with
  | zero => rfl
  | succ n ih =>
    refine (Host.Core.run.eq_2 Sys2Proof.core s n).trans ?_
    have h : Sys2Proof.core.step s = step s := rfl
    rw [h, runSteps]
    cases step s with
    | next t => exact ih t
    | fault r => rfl
    | refused r => rfl

/-- One step more at the start of a run. -/
theorem runSteps_succ {n : Nat} {s t : State} (h : step s = .next t) : runSteps (n + 1) s = runSteps n t := by
  simp [runSteps, h]

/-- A run in two parts. -/
theorem runSteps_add {m n : Nat} {s t : State} (h : runSteps m s = .next t) : runSteps (m + n) s = runSteps n t := by
  induction m generalizing s with
  | zero =>
    have : s = t := by simpa [runSteps] using h
    subst this; simp
  | succ m ih =>
    cases hs : step s with
    | next u =>
      rw [runSteps_succ hs] at h
      rw [Nat.add_right_comm, runSteps_succ hs, ih h]
    | fault r => simp [runSteps, hs] at h
    | refused r => simp [runSteps, hs] at h

end Sys2Proof.Machine
end

