-- ==== Sys2Proof/Laws/Claims.lean ====
section
/-! SUPPORT. What a step can do, in the words in which claims about the whole machine are stated (Safety.lean). -/

namespace Sys2Proof.Machine

/-- The state without its next turn. -/
def afterTurn (s : State) : State := { s with agenda := s.agenda.tail }

@[simp] theorem afterTurn_msg (s : State) : (afterTurn s).msg = s.msg := rfl
@[simp] theorem afterTurn_hash (s : State) : (afterTurn s).hash = s.hash := rfl
@[simp] theorem afterTurn_phase (s : State) : (afterTurn s).phase = s.phase := rfl
@[simp] theorem afterTurn_w (s : State) : (afterTurn s).w = s.w := rfl
@[simp] theorem afterTurn_work (s : State) : (afterTurn s).work = s.work := rfl
@[simp] theorem afterTurn_valid (s : State) : (afterTurn s).valid = s.valid := rfl
@[simp] theorem afterTurn_t (s : State) : (afterTurn s).t = s.t := rfl
@[simp] theorem afterTurn_err (s : State) : (afterTurn s).err = s.err := rfl
@[simp] theorem afterTurn_errcode (s : State) : (afterTurn s).errcode = s.errcode := rfl
@[simp] theorem afterTurn_rdata (s : State) : (afterTurn s).rdata = s.rdata := rfl
@[simp] theorem afterTurn_agenda (s : State) : (afterTurn s).agenda = s.agenda.tail := rfl

/-- A step ends in a next state only from a state that satisfies rule R36, and then as an engine turn, a host transaction
or reset, and as one of them alone. -/
theorem step_inversion {s t : State} (h : step s = .next t) :
    consistent s = true ∧
      ((engineTurn s = true ∧ resetTurn s = false ∧ pendingInstr s = none ∧ engineStep (afterTurn s) = .next t) ∨
       (engineTurn s = false ∧ resetTurn s = false ∧ ∃ i, pendingInstr s = some i ∧ exec i (afterTurn s) = .next t) ∨
       (engineTurn s = false ∧ resetTurn s = true ∧ pendingInstr s = none ∧ t = resetBlock (afterTurn s))) := by
  obtain ⟨hc, h⟩ := step_cases h
  refine ⟨hc, ?_⟩
  rcases h with ⟨ha, h⟩ | ⟨rest, ha, h⟩ | ⟨T, rest, ha, h⟩ | ⟨a, T, rest, ha, hb, h⟩ | ⟨rest, ha, h⟩
  · have e : afterTurn s = s := by simp [afterTurn, ha]; cases s; simp_all
    exact .inl ⟨by simp [engineTurn, ha], by simp [resetTurn, ha], by simp [pendingInstr, ha], by rw [e]; exact h⟩
  · exact .inl ⟨by simp [engineTurn, ha], by simp [resetTurn, ha], by simp [pendingInstr, ha, turnTransaction],
      by simpa [afterTurn, ha] using h⟩
  · exact .inr (.inl ⟨by simp [engineTurn, ha], by simp [resetTurn, ha], (rowOf T.we T.addr).operands T,
      by simp only [pendingInstr, ha, turnTransaction, decode_eq], by simpa [afterTurn, ha] using h⟩)
  · exact .inr (.inl ⟨by simp [engineTurn, ha], by simp [resetTurn, ha], (rowOf T.we T.addr).operands T,
      by simp only [pendingInstr, ha, turnTransaction, hb, decode_eq], by simpa [afterTurn, ha] using h⟩)
  · exact .inr (.inr ⟨by simp [engineTurn, ha], by simp [resetTurn, ha], by simp [pendingInstr, ha, turnTransaction],
      by simpa [afterTurn, ha] using h⟩)

/-- While the engine runs no command is accepted (rule R151). -/
theorem commandTurn_run {s : State} (hp : s.phase = .run) (bit : Nat) : commandTurn bit s = false := by
  simp [commandTurn, acceptedCommand, hp]

/-- A turn that is no host transaction is no command. -/
theorem commandTurn_none {s : State} (h : pendingInstr s = none) (bit : Nat) : commandTurn bit s = false := by
  unfold commandTurn acceptedCommand
  rw [h]
  cases s.phase <;> rfl

/-- A CTRL write issued while idle with its reserved bits 0 is accepted (rule R156). -/
theorem commandTurn_accepted {s : State} {d : Word} (hp : s.phase = .idle) (hi : pendingInstr s = some (.ctrlWr d))
    (hr : ctrlReserved d = 0#29) (bit : Nat) : commandTurn bit s = d.getLsbD bit := by
  simp only [commandTurn, acceptedCommand, hp, hi]
  simp [show d.extractLsb' 3 29 = 0#29 from hr]

/-- A CTRL write with a reserved bit set is no command (rule R156). -/
theorem commandTurn_reserved {s : State} {d : Word} (hi : pendingInstr s = some (.ctrlWr d))
    (hr : ctrlReserved d ≠ 0#29) (bit : Nat) : commandTurn bit s = false := by
  unfold commandTurn acceptedCommand
  rw [hi]
  cases s.phase <;> simp [show d.extractLsb' 3 29 ≠ 0#29 from hr]

/-- A transaction of another row is no command. -/
theorem commandTurn_other {s : State} {i : Instr} (hi : pendingInstr s = some i) (h : ∀ d, i ≠ .ctrlWr d) (bit : Nat) :
    commandTurn bit s = false := by
  unfold commandTurn acceptedCommand
  rw [hi]
  cases i <;> first | exact absurd rfl (h _) | (cases s.phase <;> rfl)

/-- A host transaction is one of four things: a read, a write refused while busy, a write of another row than CTRL while
idle, a CTRL write while idle. -/
theorem exec_cases {i : Instr} {s t : State} (h : exec i s = .next t) :
    (i.isWrite = false ∧ t = respond (readValue i s) s) ∨
    (i.isWrite = true ∧ s.phase = .run ∧ t = recordError .busyWrite (respondNothing s)) ∨
    (i.isWrite = true ∧ s.phase = .idle ∧ t = writeRule i (respondNothing s)) := by
  cases hw : i.isWrite with
  | false =>
    rw [exec_of_read hw] at h
    exact .inl ⟨rfl, by simpa using h.symm⟩
  | true =>
    rw [exec_of_write hw] at h
    cases hp : s.phase with
    | run =>
      rw [gate_run _ (by simpa using hp)] at h
      exact .inr (.inl ⟨rfl, rfl, by simpa using h.symm⟩)
    | idle =>
      rw [gate_idle _ (by simpa using hp)] at h
      exact .inr (.inr ⟨rfl, rfl, by simpa using h.symm⟩)

/-- A read is no command. -/
theorem commandTurn_read {s : State} {i : Instr} (hi : pendingInstr s = some i) (h : i.isWrite = false) (bit : Nat) :
    commandTurn bit s = false :=
  commandTurn_other hi (by rintro d rfl; cases h) bit

/-- A refused write is no command. -/
theorem commandTurn_refused {s : State} {i : Instr} (hi : pendingInstr s = some i)
    (h : ∀ d, i = .ctrlWr d → ctrlReserved d ≠ 0#29) (bit : Nat) : commandTurn bit s = false := by
  by_cases hh : ∃ d, i = .ctrlWr d
  · obtain ⟨d, rfl⟩ := hh
    exact commandTurn_reserved hi (h d rfl) bit
  · exact commandTurn_other hi (fun d e => hh ⟨d, e⟩) bit

theorem foldTurn_iff {s : State} :
    foldTurn s = true ↔ engineTurn s = true ∧ s.phase = .run ∧ s.t.toNat = 64 := by
  unfold foldTurn busy; cases s.phase <;> simp

theorem roundTurn_iff {s : State} :
    roundTurn s = true ↔ engineTurn s = true ∧ s.phase = .run ∧ s.t.toNat ≤ 63 := by
  unfold roundTurn busy; cases s.phase <;> simp

/-- The nine ways in which a step ends in a next state: an engine turn while idle, a round, a fold, reset, a read, a write
refused while busy, an accepted MSG write, a write refused while idle, an accepted command. -/
theorem step_forms {s t : State} (h : step s = .next t) :
    consistent s = true ∧
      ((engineTurn s = true ∧ resetTurn s = false ∧ pendingInstr s = none ∧ s.phase = .idle ∧ t = afterTurn s) ∨
       (engineTurn s = true ∧ resetTurn s = false ∧ pendingInstr s = none ∧ s.phase = .run ∧
          ∃ (ht : s.t.toNat < 64) (v : Vars) (wt : Word), s.work = v.store ∧ expandedWord s.w s.t.toNat = some wt ∧
            t = { afterTurn s with
                  w := storeExpanded s.w ⟨s.t.toNat, ht⟩ wt, work := (v.round K[s.t.toNat] wt).store, t := s.t + 1#7 }) ∨
       (engineTurn s = true ∧ resetTurn s = false ∧ pendingInstr s = none ∧ s.phase = .run ∧ s.t.toNat = 64 ∧
          ∃ v : Vars, s.work = v.store ∧
            t = { afterTurn s with
                  hash := foldHash s.hash v, work := Work.empty, w := Vector.replicate 64 none, t := 0#7,
                  phase := .idle, valid := true }) ∨
       (engineTurn s = false ∧ resetTurn s = true ∧ pendingInstr s = none ∧ t = resetBlock (afterTurn s)) ∨
       (engineTurn s = false ∧ resetTurn s = false ∧ ∃ i, pendingInstr s = some i ∧ i.isWrite = false ∧
          t = respond (readValue i (afterTurn s)) (afterTurn s)) ∨
       (engineTurn s = false ∧ resetTurn s = false ∧ ∃ i, pendingInstr s = some i ∧ i.isWrite = true ∧ s.phase = .run ∧
          t = recordError .busyWrite (respondNothing (afterTurn s))) ∨
       (engineTurn s = false ∧ resetTurn s = false ∧ s.phase = .idle ∧ ∃ i d, pendingInstr s = some (.msgWr i d) ∧
          t = setMsg i d (respondNothing (afterTurn s))) ∨
       (engineTurn s = false ∧ resetTurn s = false ∧ s.phase = .idle ∧ ∃ i e, pendingInstr s = some i ∧
          i.isWrite = true ∧ (∀ k d, i ≠ .msgWr k d) ∧ (∀ d, i = .ctrlWr d → ctrlReserved d ≠ 0#29) ∧
          t = recordError e (respondNothing (afterTurn s))) ∨
       (engineTurn s = false ∧ resetTurn s = false ∧ s.phase = .idle ∧ ∃ d, pendingInstr s = some (.ctrlWr d) ∧
          ctrlReserved d = 0#29 ∧ t = command d (respondNothing (afterTurn s)))) := by
  obtain ⟨hc, h⟩ := step_inversion h
  refine ⟨hc, ?_⟩
  rcases h with ⟨h1, h2, h3, h⟩ | ⟨h1, h2, i, hi, h⟩ | ⟨h1, h2, h3, h⟩
  · rcases engineStep_cases h with ⟨hp, h⟩ | ⟨hp, ht, v, wt, hv, hw, h⟩ | ⟨hp, ht, v, hv, h⟩
    · exact .inl ⟨h1, h2, h3, hp, h⟩
    · exact .inr (.inl ⟨h1, h2, h3, hp, ht, v, wt, hv, hw, h⟩)
    · exact .inr (.inr (.inl ⟨h1, h2, h3, hp, ht, v, hv, h⟩))
  · rcases exec_cases h with ⟨hw, h⟩ | ⟨hw, hp, h⟩ | ⟨hw, hp, h⟩
    · exact .inr (.inr (.inr (.inr (.inl ⟨h1, h2, i, hi, hw, h⟩))))
    · exact .inr (.inr (.inr (.inr (.inr (.inl ⟨h1, h2, i, hi, hw, hp, h⟩)))))
    · refine .inr (.inr (.inr (.inr (.inr (.inr ?_)))))
      cases i with
      | msgWr k d => exact .inl ⟨h1, h2, hp, k, d, hi, h⟩
      | ctrlWr d =>
        by_cases hr : ctrlReserved d = 0#29
        · exact .inr (.inr ⟨h1, h2, hp, d, hi, hr, h⟩)
        · rw [writeRule, command_reserved hr] at h
          exact .inr (.inl ⟨h1, h2, hp, _, _, hi, rfl, by intros; simp, by intro d' e; cases e; exact hr, h⟩)
      | hashWr => exact .inr (.inl ⟨h1, h2, hp, _, _, hi, rfl, (by intro _ _; simp), (by intro d e; cases e), h⟩)
      | statusWr => exact .inr (.inl ⟨h1, h2, hp, _, _, hi, rfl, (by intro _ _; simp), (by intro d e; cases e), h⟩)
      | rsvWrLo => exact .inr (.inl ⟨h1, h2, hp, _, _, hi, rfl, (by intro _ _; simp), (by intro d e; cases e), h⟩)
      | rsvWrHi => exact .inr (.inl ⟨h1, h2, hp, _, _, hi, rfl, (by intro _ _; simp), (by intro d e; cases e), h⟩)
      | _ => cases hw
  · exact .inr (.inr (.inr (.inl ⟨h1, h2, h3, h⟩)))

/-- Every step takes one turn off the agenda. -/
theorem step_agenda {s t : State} (h : step s = .next t) : t.agenda = s.agenda.tail := by
  obtain ⟨-, h⟩ := step_forms h
  rcases h with ⟨-, -, -, -, rfl⟩ | ⟨-, -, -, -, _, _, _, -, -, rfl⟩ | ⟨-, -, -, -, -, _, -, rfl⟩ | ⟨-, -, -, rfl⟩ |
    ⟨-, -, _, -, -, rfl⟩ | ⟨-, -, _, -, -, -, rfl⟩ | ⟨-, -, -, _, _, -, rfl⟩ | ⟨-, -, -, _, _, -, -, -, -, rfl⟩ |
    ⟨-, -, -, _, -, -, rfl⟩ <;> simp [command_frame]

end Sys2Proof.Machine
end

