-- ==== Sys2Proof/Laws/Flags.lean ====
section
/-! SUPPORT. The STATUS word (rule R25), bit by bit and field by field. -/

namespace Sys2Proof.Machine

/-- Every bit of the STATUS word (rule R25). -/
theorem getLsbD_statusWord (s : State) (i : Nat) :
    (statusWord s).getLsbD i =
      if i = 0 then busy s
      else if i = 1 then s.valid
      else if i = 2 then s.err
      else if i = 3 then false
      else if i < 8 then s.errcode.getLsbD (i - 4)
      else if i < 15 then (roundField s).getLsbD (i - 8)
      else false := by
  have h : (statusWord s).getLsbD i = BitVec.getLsbD (w := 17 + 7 + 4 + 1 + 1 + 1 + 1)
      (0#17 ++ roundField s ++ s.errcode ++ 0#1 ++ BitVec.ofBool s.err ++ BitVec.ofBool s.valid ++
        BitVec.ofBool (busy s)) i := rfl
  rw [h]
  simp only [BitVec.getLsbD_append, BitVec.getLsbD_ofBool, BitVec.getLsbD_zero]
  match i with
  | 0 | 1 | 2 | 3 => simp
  | i + 4 =>
    simp only [Nat.reduceEqDiff, if_false, Nat.add_sub_cancel, show ¬ i + 4 < 1 by omega,
      show i + 4 ≠ 0 by omega, show i + 4 ≠ 1 by omega, show i + 4 ≠ 2 by omega, show i + 4 ≠ 3 by omega,
      show i + 4 - 1 = i + 3 by omega, show i + 3 - 1 = i + 2 by omega, show i + 2 - 1 = i + 1 by omega,
      show ¬ i + 3 < 1 by omega, show ¬ i + 2 < 1 by omega, show ¬ i + 1 < 1 by omega,
      show i + 4 - 8 = i - 4 by omega]
    by_cases h4 : i < 4
    · simp [h4, show i + 4 < 8 by omega]
    · by_cases h11 : i < 11
      · simp [h4, show i - 4 < 7 by omega, show ¬ i + 4 < 8 by omega, show i + 4 < 15 by omega]
      · simp [h4, show ¬ i - 4 < 7 by omega, show ¬ i + 4 < 8 by omega, show ¬ i + 4 < 15 by omega]

/-- The ERRCODE field (rule R25). -/
theorem statusWord_errcode (s : State) : (statusWord s).extractLsb' 4 4 = s.errcode := by
  apply BitVec.eq_of_getLsbD_eq
  intro i hi
  rw [BitVec.getLsbD_extractLsb', getLsbD_statusWord]
  simp [hi, show 4 + i ≠ 1 by omega, show 4 + i ≠ 2 by omega, show 4 + i ≠ 3 by omega,
    show 4 + i < 8 by omega]

/-- The ROUND field (rule R25). -/
theorem statusWord_round (s : State) : (statusWord s).extractLsb' 8 7 = roundField s := by
  apply BitVec.eq_of_getLsbD_eq
  intro i hi
  rw [BitVec.getLsbD_extractLsb', getLsbD_statusWord]
  simp [hi, show 8 + i ≠ 1 by omega, show 8 + i ≠ 2 by omega, show 8 + i ≠ 3 by omega,
    show 8 + i < 15 by omega]

end Sys2Proof.Machine
end

