-- ==== Sys2Proof/Laws/Invariant.lean ====
section
/-! SUPPORT. Each operation over State keeps the invariants of rule R36. -/

namespace Sys2Proof.Machine

/-- An engine step keeps the invariants of rule R36. -/
theorem engineStep_consistent {s t : State} (hc : consistent s = true) (h : engineStep s = .next t) :
    consistent t = true := by
  rcases engineStep_cases h with ⟨hp, rfl⟩ | ⟨hp, ht, v, wt, hv, hw, rfl⟩ | ⟨hp, ht, v, hv, rfl⟩
  · exact hc
  · obtain ⟨he, hr⟩ := (consistent_run hp).1 hc
    refine (consistent_run (by simpa using hp)).2 ⟨he, ?_⟩
    obtain ⟨-, -, hW⟩ := runStorageOk_iff.1 hr
    have ht1 : (s.t + 1#7).toNat = s.t.toNat + 1 := by rw [BitVec.toNat_add]; simp; omega
    refine runStorageOk_iff.2 ⟨by simp only [ht1]; omega, ⟨_, rfl⟩, ?_⟩
    intro i
    simp only [ht1, Fin.getElem_fin]
    rw [getElem_storeExpanded _ _ _ _ i.isLt]
    have := hW i
    simp only [Fin.getElem_fin] at this
    by_cases hh : 16 ≤ s.t.toNat ∧ i.val = s.t.toNat
    · simp [hh]
    · rw [if_neg hh, this]; omega
  · obtain ⟨he, hr⟩ := (consistent_run hp).1 hc
    refine (consistent_idle rfl).2 ⟨he, idleStorageOk_iff.2 ⟨rfl, ?_, rfl⟩⟩
    intro i; simp

/-- `record_error` keeps the invariants of rule R36. -/
theorem recordError_consistent (e : ErrorName) {s : State} (hc : consistent s = true) :
    consistent (recordError e s) = true := by
  rw [recordError_eq]
  have key : errorFieldsOk s = true →
      errorFieldsOk { s with err := true, errcode := if s.err then s.errcode else e.code } = true := by
    intro h
    obtain ⟨h1, h2⟩ := errorFieldsOk_iff.1 h
    refine errorFieldsOk_iff.2 ⟨?_, ?_⟩
    · by_cases he : s.err = true
      · simpa [he] using h1.1 he
      · simp [he]; cases e <;> decide
    · by_cases he : s.err = true
      · simpa [he] using h2
      · simp [he]; cases e <;> decide
  unfold consistent at hc ⊢
  simp only [Bool.and_eq_true] at hc ⊢
  exact ⟨key hc.1, hc.2⟩

/-- An accepted command keeps the invariants of rule R36. -/
theorem command_consistent {d : Word} (hr : ctrlReserved d = 0#29) {s : State} (hp : s.phase = .idle)
    (hc : consistent s = true) : consistent (command d s) = true := by
  obtain ⟨he, hi⟩ := (consistent_idle hp).1 hc
  rw [command_eq hr]
  have hE : ∀ x : State, x.err = (if ctrlClrerr d then false else s.err) →
      x.errcode = (if ctrlClrerr d then 0#4 else s.errcode) → errorFieldsOk x = true := by
    intro x h1 h2
    refine errorFieldsOk_iff.2 ?_
    rw [h1, h2]
    obtain ⟨g1, g2⟩ := errorFieldsOk_iff.1 he
    by_cases hb : ctrlClrerr d = true
    · simp [hb]
    · simp only [hb]; exact ⟨g1, g2⟩
  by_cases hn : ctrlNext d = true
  · refine (consistent_run (by simp [hn])).2 ⟨hE _ rfl rfl, ?_⟩
    refine runStorageOk_iff.2 ⟨by simp [hn], ⟨_, by simp only [hn, if_true]; rfl⟩, ?_⟩
    intro i
    simp only [hn, if_true, Fin.getElem_fin, getElem_loadSchedule]
    by_cases h16 : i.val < 16
    · simp [h16]
    · simp [h16]
  · refine (consistent_idle (by simp [hn, hp])).2 ⟨hE _ rfl rfl, ?_⟩
    obtain ⟨g1, g2, g3⟩ := idleStorageOk_iff.1 hi
    refine idleStorageOk_iff.2 ?_
    simp only [hn]
    exact ⟨g1, g2, g3⟩

end Sys2Proof.Machine
end

