-- ==== Sys2Proof/Laws/HostAgent.lean ====
section
/-! SUPPORT. The host as an agent: what a move can do, and a rule for each line of a program, under any schedule. -/

namespace Sys2Proof.Machine

/-- From a state that satisfies rule R36 the engine's turn completes. -/
theorem engineStep_next {s : State} (hc : consistent s = true) : ∃ t, engineStep s = .next t := by
  cases hp : s.phase with
  | idle => exact ⟨s, engineStep_idle hp⟩
  | run =>
    obtain ⟨ht, ⟨v, hv⟩, hW⟩ := runStorageOk_iff.1 ((consistent_run hp).1 hc).2
    by_cases h : s.t.toNat < 64
    · obtain ⟨wt, hw⟩ := expandedWord_isSome h (w := s.w) (fun i hi => (hW i).2 hi)
      exact ⟨_, engineStep_round hp h hv hw⟩
    · exact ⟨_, engineStep_fold hp (by omega) hv⟩

/-- The engine's turn, given to a block that satisfies rule R36. -/
theorem giveTurn_engine {s : State} (hc : consistent s = true) : giveTurn .engine s = engineStep { s with agenda := [] } := by
  have hc' : consistent { s with agenda := [.engine] } = true := (consistent_environment _ _ _).trans hc
  rw [giveTurn, step_turn (x := .engine) (rest := []) hc' rfl, takeTurn]

/-- A host transaction, given to a block that satisfies rule R36. -/
theorem giveTurn_host {s : State} {T : TxnWord} {i : Instr} (hc : consistent s = true) (hT : decode T = .ok i) :
    giveTurn (.host T) s = exec i { s with agenda := [] } := by
  have hc' : consistent { s with agenda := [.host T] } = true := (consistent_environment _ _ _).trans hc
  rw [giveTurn, step_turn (x := .host T) (rest := []) hc' rfl, takeTurn, hostTurn, hT]

/-- An engine move. -/
theorem move_engine {x : Session} {t : State} (h : giveTurn .engine x.block = .next t) :
    x.move .engine = .next { x with block := t } := by
  simp only [Session.move, h]

/-- A host whose program is done does nothing. -/
theorem move_done {x : Session} (h : x.program = []) : x.move .host = .next x := by
  simp only [Session.move, h]

/-- A host move issues the first line. -/
theorem move_host {s t : State} {line : HostLine} {rest : List HostLine} {answers : List Word}
    (h : giveTurn (.host line.word) s = .next t) :
    Session.move .host ⟨s, line :: rest, answers⟩ = .next (line.done rest t ⟨s, line :: rest, answers⟩) := by
  simp only [Session.move, h]

/-- One move at the start of a schedule. -/
theorem run_cons {m : Mover} {schedule : List Mover} {x y : Session} (h : x.move m = .next y) :
    Session.run (m :: schedule) x = Session.run schedule y := by
  simp only [Session.run, h]

/-- A schedule in two parts. -/
theorem run_append {a b : List Mover} {x y : Session} (h : Session.run a x = .next y) :
    Session.run (a ++ b) x = Session.run b y := by
  induction a generalizing x with
  | nil => cases h; rfl
  | cons m a ih =>
    cases hm : x.move m with
    | next z =>
      rw [run_cons hm] at h
      rw [List.cons_append, run_cons hm, ih h]
    | fault r => simp [Session.run, hm] at h
    | refused r => simp [Session.run, hm] at h

/-- Engine moves keep A. -/
def EngineKeeps (A : State → List Word → Prop) : Prop :=
  ∀ s answers, A s answers → ∃ t, giveTurn .engine s = .next t ∧ A t answers

/-- From any block and answers that satisfy A, under every schedule, the program neither faults nor is refused, keeps C
throughout, and ends in Q when it is done. -/
def Ends (program : List HostLine) (A : State → List Word → Prop) (C : State → Prop)
    (Q : State → List Word → Prop) : Prop :=
  ∀ s answers, A s answers → ∀ schedule, ∃ x, Session.run schedule ⟨s, program, answers⟩ = .next x ∧ C x.block ∧
    (x.program = [] → Q x.block x.answers)

/-- A program that is done. -/
theorem ends_nil {A Q : State → List Word → Prop} {C : State → Prop} (hE : EngineKeeps A) (hC : ∀ s r, A s r → C s)
    (hQ : ∀ s r, A s r → Q s r) : Ends [] A C Q := by
  intro s answers h schedule
  induction schedule generalizing s with
  | nil => exact ⟨_, rfl, hC _ _ h, fun _ => hQ _ _ h⟩
  | cons m schedule ih =>
    cases m with
    | host => rw [run_cons (move_done rfl)]; exact ih s h
    | engine =>
      obtain ⟨t, ht, hA⟩ := hE s answers h
      rw [run_cons (move_engine ht)]
      exact ih t hA

/-- A transaction line. -/
theorem ends_txn {A A' Q : State → List Word → Prop} {C : State → Prop} {line : AsmLine} {rest : List HostLine}
    (hE : EngineKeeps A) (hC : ∀ s r, A s r → C s)
    (hH : ∀ s r, A s r → ∃ t, giveTurn (.host line.word) s = .next t ∧ A' t (r ++ t.rdata.toList))
    (hR : Ends rest A' C Q) : Ends (.txn line :: rest) A C Q := by
  intro s answers h schedule
  induction schedule generalizing s with
  | nil => exact ⟨_, rfl, hC _ _ h, fun e => by cases e⟩
  | cons m schedule ih =>
    cases m with
    | host =>
      obtain ⟨t, ht, hA⟩ := hH s answers h
      rw [run_cons (move_host (line := .txn line) ht)]
      exact hR t _ hA schedule
    | engine =>
      obtain ⟨t, ht, hA⟩ := hE s answers h
      rw [run_cons (move_engine ht)]
      exact ih t hA

/-- A wait. -/
theorem ends_wait {A A' Q : State → List Word → Prop} {C : State → Prop} {rest : List HostLine}
    (hE : EngineKeeps A) (hC : ∀ s r, A s r → C s)
    (hH : ∀ s r, A s r → ∃ t, giveTurn (.host HostLine.wait.word) s = .next t ∧ A t r ∧ (seenIdle t.rdata = true → A' t r))
    (hR : Ends rest A' C Q) : Ends (.wait :: rest) A C Q := by
  intro s answers h schedule
  induction schedule generalizing s with
  | nil => exact ⟨_, rfl, hC _ _ h, fun e => by cases e⟩
  | cons m schedule ih =>
    cases m with
    | host =>
      obtain ⟨t, ht, hA, hA'⟩ := hH s answers h
      rw [run_cons (move_host (line := .wait) ht), HostLine.done]
      cases hs : seenIdle t.rdata with
      | true => exact hR t _ (hA' hs) schedule
      | false => exact ih t hA
    | engine =>
      obtain ⟨t, ht, hA⟩ := hE s answers h
      rw [run_cons (move_engine ht)]
      exact ih t hA

end Sys2Proof.Machine
end

