-- ==== Sys2Proof/Laws/PerInstr.lean ====
section
/-! SUPPORT. Per instruction: the word of a well-formed instruction lies in the row of its own name and in no other. -/

namespace Sys2Proof.Laws.EncodeRow

/-- The row an instruction belongs to. -/
def rowName : Instr → RowName
  | .msgRd _ => .msgRd
  | .msgWr _ _ => .msgWr
  | .hashRd _ => .hashRd
  | .hashWr _ _ => .hashWr
  | .ctrlRd => .ctrlRd
  | .ctrlWr _ => .ctrlWr
  | .statusRd => .statusRd
  | .statusWr _ => .statusWr
  | .rsvRdLo _ => .rsvRdLo
  | .rsvWrLo _ _ => .rsvWrLo
  | .rsvRdHi _ => .rsvRdHi
  | .rsvWrHi _ _ => .rsvWrHi

/-- WE and the address of a well-formed instruction select its own row (rule R74). -/
def Statement (i : Instr) : Prop := i.wellFormed = true → rowOf i.isWrite i.portAddr = rowName i

theorem msgRd (i : Fin 16) : Statement (.msgRd i) := by
  intro _; revert i; decide

theorem msgWr (i : Fin 16) (d : Word) : Statement (.msgWr i d) := by
  have h : ∀ i : Fin 16, rowOf true (BitVec.ofNat 5 i.val) = .msgWr := by decide
  exact fun _ => h i

theorem hashRd (i : Fin 8) : Statement (.hashRd i) := by
  intro _; revert i; decide

theorem hashWr (i : Fin 8) (d : Word) : Statement (.hashWr i d) := by
  have h : ∀ i : Fin 8, rowOf true (BitVec.ofNat 5 (0x10 + i.val)) = .hashWr := by decide
  exact fun _ => h i

theorem ctrlRd : Statement .ctrlRd := fun _ => rfl

theorem ctrlWr (d : Word) : Statement (.ctrlWr d) := fun _ => rfl

theorem statusRd : Statement .statusRd := fun _ => rfl

theorem statusWr (d : Word) : Statement (.statusWr d) := fun _ => rfl

theorem rsvRdLo (addr : PortAddr) : Statement (.rsvRdLo addr) := by
  unfold Statement; revert addr; decide

theorem rsvWrLo (addr : PortAddr) (d : Word) : Statement (.rsvWrLo addr d) := by
  have h : ∀ a : PortAddr, inReservedLo a = true → rowOf true a = .rsvWrLo := by decide
  exact h addr

theorem rsvRdHi (addr : PortAddr) : Statement (.rsvRdHi addr) := by
  unfold Statement; revert addr; decide

theorem rsvWrHi (addr : PortAddr) (d : Word) : Statement (.rsvWrHi addr d) := by
  have h : ∀ a : PortAddr, inReservedHi a = true → rowOf true a = .rsvWrHi := by decide
  exact h addr

end Sys2Proof.Laws.EncodeRow
end

