-- ==== Sys2Proof/Laws/Schedule.lean ====
section
/-! SUPPORT. The pure schedule function and the pure rounds, word by word. -/

namespace Sys2Proof.Machine

/-- Growing a schedule by n adds n words. -/
theorem growSchedule_length (n : Nat) (ws : List Word) : (growSchedule n ws).length = ws.length + n := by
  induction n generalizing ws with
  | zero => rfl
  | succ n ih => simp only [growSchedule, ih, List.length_append, List.length_singleton]; omega

/-- Growing a schedule leaves the words it has. -/
theorem growSchedule_getD (n : Nat) (ws : List Word) (k : Nat) (h : k < ws.length) :
    (growSchedule n ws).getD k 0#32 = ws.getD k 0#32 := by
  induction n generalizing ws with
  | zero => rfl
  | succ n ih =>
    rw [growSchedule, ih _ (by rw [List.length_append]; omega)]
    simp [List.getD_eq_getElem?_getD, List.getElem?_append_left h]

/-- One pair more is one round more. -/
theorem runRounds_append (v : Vars) (l : List (Word × Word)) (x : Word × Word) :
    runRounds v (l ++ [x]) = (runRounds v l).round x.1 x.2 := by
  induction l generalizing v with
  | nil => rfl
  | cons y l ih => simp only [List.cons_append, runRounds, ih]

end Sys2Proof.Machine
end

