-- ==== Sys2Proof/Tests/Slice0.lean ====
section
/-! SUPPORT. Tests of the model against the words and values that the spec writes out, and for each statement that has
hypotheses a witness that meets them. Expected values are those of 95_test_vectors.md, of the rules' own worked
examples, or of the tables of 30_encoding.md. -/

namespace Sys2Proof.Tests

open Sys2Proof Sys2Proof.Machine

/-! ### Ill-formed instructions are refused -/

theorem test_illformed_rsvRdLo_below : (Instr.rsvRdLo 0x19#5).wellFormed = false := by decide
theorem test_illformed_rsvRdLo_above : (Instr.rsvRdLo 0x1C#5).wellFormed = false := by decide
theorem test_illformed_rsvWrLo : (Instr.rsvWrLo 0x1C#5 0#32).wellFormed = false := by decide
theorem test_illformed_rsvRdHi : (Instr.rsvRdHi 0x1B#5).wellFormed = false := by decide
theorem test_illformed_rsvWrHi : (Instr.rsvWrHi 0x05#5 1#32).wellFormed = false := by decide
theorem test_illformed_number : decodeTableWord 40 (2 ^ 38) = none := by decide

/-! ### Decoding: words of rules R74 and R79 and of 95_test_vectors.md section 5 -/

theorem test_decode_msgRd : decode 0x0300000000#38 = .ok (.msgRd 3) := by decide
theorem test_decode_msgWr : decode 0x2F00000018#38 = .ok (.msgWr 15 0x00000018#32) := by decide
theorem test_decode_hashRd : decode 0x1700000000#38 = .ok (.hashRd 7) := by decide
theorem test_decode_hashWr : decode 0x3200000000#38 = .ok (.hashWr 2 0#32) := by decide
theorem test_decode_ctrlRd : decode 0x1800000000#38 = .ok .ctrlRd := by decide
theorem test_decode_ctrlWr : decode 0x3800000003#38 = .ok (.ctrlWr 3#32) := by decide
theorem test_decode_statusRd : decode 0x1900000000#38 = .ok .statusRd := by decide
theorem test_decode_statusWr : decode 0x3900000000#38 = .ok (.statusWr 0#32) := by decide
theorem test_decode_rsvRdLo : decode 0x1A00000000#38 = .ok (.rsvRdLo 0x1A#5) := by decide
theorem test_decode_rsvWrLo : decode 0x3A00000001#38 = .ok (.rsvWrLo 0x1A#5 1#32) := by decide
theorem test_decode_rsvRdHi : decode 0x1F00000000#38 = .ok (.rsvRdHi 0x1F#5) := by decide
theorem test_decode_rsvWrHi : decode 0x3C00000000#38 = .ok (.rsvWrHi 0x1C#5 0#32) := by decide

/-- WDATA of a read is ignored (rule R75). -/
theorem test_decode_read_ignores_data : decode 0x05DEADBEEF#38 = .ok (.msgRd 5) := by decide

/-- Field by field, from the pattern `1 0iiii d...d` of rule R74. -/
theorem test_decode_bits :
    decode (0b1#1 ++ 0b01010#5 ++ 0b10000000000000000000000000000001#32) = .ok (.msgWr 10 0x80000001#32) := by decide

/-! ### One step of each row: the vectors of 95_test_vectors.md section 5 -/

/-- The state after the one transaction, issued next. -/
def after (word : Nat) (s : State) : Option State :=
  match step (s.withFetchWord 40 word) with
  | .next t => some t
  | _ => none

/-- RDATA of the one transaction, and STATUS after it. -/
def reply (word : Nat) (s : State) : Option (Option Word × Word) := (after word s).map fun t => (t.rdata, statusWord t)

/-- The "abc" block of 95_test_vectors.md section 3.2. -/
def abc : MsgBlock := #v[0x61626380#32, 0#32, 0#32, 0#32, 0#32, 0#32, 0#32, 0#32,
  0#32, 0#32, 0#32, 0#32, 0#32, 0#32, 0#32, 0x18#32]

/-- Reset, then the "abc" block loaded. -/
def loaded : State := { State.reset with msg := abc }

/-- V16: a block just started. -/
def started : State := startBlock loaded

/-- V17: three rounds done; a..h from the trace of section 4. -/
def threeRounds : State :=
  { started with
    t := 3#7
    work := ⟨some 0xc8c347a7#32, some 0x5a6ad9ad#32, some 0x5d6aebcd#32, some 0x6a09e667#32,
             some 0xf92939eb#32, some 0x78ce7989#32, some 0xfa2a4622#32, some 0x510e527f#32⟩ }

/-- V18: the error record of a refused write. -/
def threeRoundsErr : State := { threeRounds with err := true, errcode := 1#4 }

/-- V6: after a refused write to HASH2. -/
def refusedOnce : State := { State.reset with err := true, errcode := 2#4 }

/-- V24: a digest done. -/
def digestDone : State :=
  { loaded with
    valid := true
    hash := #v[0xba7816bf#32, 0x8f01cfea#32, 0x414140de#32, 0x5dae2223#32,
               0xb00361a3#32, 0x96177a9c#32, 0xb410ff61#32, 0xf20015ad#32] }

theorem test_V1_statusRd : reply 0x1900000000 State.reset = some (some 0#32, 0#32) := by decide
theorem test_V17_statusRd : reply 0x1900000000 threeRounds = some (some 0x00000301#32, 0x00000301#32) := by decide
theorem test_V3_hashRd : reply 0x1700000000 State.reset = some (some 0x5be0cd19#32, 0#32) := by decide
theorem test_R154_hashRd_busy : reply 0x1000000000 threeRounds = some (some 0x6a09e667#32, 0x00000301#32) := by decide
theorem test_V4_msgRd : reply 0x0500000000 State.reset = some (some 0#32, 0#32) := by decide
theorem test_V5_msgRd : reply 0x0000000000 loaded = some (some 0x61626380#32, 0#32) := by decide
theorem test_V5_msgWr : (after 0x2061626380 State.reset).map (fun t => (t.msg[0], t.msg[1], t.rdata, statusWord t)) =
    some (0x61626380#32, 0#32, none, 0#32) := by decide
theorem test_V18_msgWr : (after 0x20DEADBEEF threeRounds).map (fun t => (t.msg[0], statusWord t)) =
    some (0x61626380#32, 0x00000315#32) := by decide
theorem test_V6_hashWr : (after 0x3200000000 State.reset).map (fun t => (t.hash[2], statusWord t)) =
    some (0x3c6ef372#32, 0x00000024#32) := by decide
theorem test_V25_hashWr : reply 0x3000000000 (startBlock State.reset) = some (none, 0x00000015#32) := by decide
theorem test_V7_statusWr : reply 0x3900000000 State.reset = some (none, 0x00000024#32) := by decide
theorem test_V8_rsvWrLo : reply 0x3A00000001 State.reset = some (none, 0x00000034#32) := by decide
theorem test_V19_rsvWrLo : reply 0x3A00000001 threeRoundsErr = some (none, 0x00000315#32) := by decide
theorem test_R164_rsvWrHi : reply 0x3F00000001 State.reset = some (none, 0x00000034#32) := by decide
theorem test_V13_ctrlRd : reply 0x1800000000 State.reset = some (some 0#32, 0#32) := by decide
theorem test_R163_rsvRdLo : reply 0x1B00000000 threeRounds = some (some 0#32, 0x00000301#32) := by decide
theorem test_V14_rsvRdHi : reply 0x1F00000000 State.reset = some (some 0#32, 0#32) := by decide
theorem test_V12_ctrlWr_reserved : reply 0x380000000C refusedOnce = some (none, 0x00000024#32) := by decide

/-- INIT comes before NEXT in one write (rule R156): a..h are seeded from IV, not from the finished digest. -/
theorem test_V16_ctrlWr_initNext :
    (after 0x3800000003 digestDone).map (fun t => (statusWord t, t.work.a, t.work.h, t.w[15], t.w[16])) =
    some (0x00000001#32, some 0x6a09e667#32, some 0x5be0cd19#32, some 0x18#32, none) := by decide

/-! ### The engine: the trace of 95_test_vectors.md section 4 -/

/-- Round 3, from the row t=2 of the trace to the row t=3. -/
theorem test_round_three : (match step threeRounds with | .next t => some (t.work.a, t.work.b, t.work.e, t.t) | _ => none) =
    some (some 0xd550f666#32, some 0xc8c347a7#32, some 0x24e00850#32, 4#7) := by decide

/-- 95_test_vectors.md section 3.2, row 16 and the last word. -/
theorem test_schedule_abc : [16, 17, 18, 19, 63].map (schedAt abc) =
    [0x61626380#32, 0x000f0000#32, 0x7da86405#32, 0x600003c6#32, 0x12b1edeb#32] := by decide +kernel

/-- The whole "abc" block (95_test_vectors.md section 4). -/
theorem test_compress_abc : compress IV abc = digestDone.hash := by decide +kernel

/-! ### Primitive vectors of 95_test_vectors.md section 2 -/

theorem test_sigmas :
    (rotr 0x12345678#32 7, rotr 0x12345678#32 18, shr 0x12345678#32 3) = (0xf02468ac#32, 0x159e048d#32, 0x02468acf#32) ∧
    (smallSigma0 0x12345678#32, smallSigma1 0x12345678#32) = (0xe7fce6ee#32, 0xa1f78649#32) ∧
    (bigSigma0 0x12345678#32, bigSigma1 0x12345678#32) = (0x66146474#32, 0x3561abda#32) := by decide

theorem test_choose_majority :
    choose 0xf0f0f0f0#32 0xff00ff00#32 0x0ff00ff0#32 = 0xff00ff00#32 ∧
    majority 0xf0f0f0f0#32 0xff00ff00#32 0x0ff00ff0#32 = 0xfff0fff0#32 := by decide

/-! ### The host's duties -/

/-- "abc" is framed into the block of section 3.2. -/
theorem test_frame_abc : blocksOf [0x61#8, 0x62#8, 0x63#8] = some [abc] := by decide

/-- The first word of the "abc" digest as text. -/
theorem test_hex : hexText (wordBytes 0xba7816bf#32) = "ba7816bf".toList := by decide

/-! ### Witnesses: states and operands that meet the hypotheses of the statements -/

/-- A running block with all 64 rounds done. -/
def foldReady : State :=
  { State.reset with phase := .run, t := 64#7, work := (seedVars IV).store, w := Vector.replicate 64 (some 1#32) }

/-- A running block about to take round 16, whose words are W[i] = i. -/
def roundSixteen : State :=
  { State.reset with
    phase := .run, t := 16#7, work := (seedVars IV).store
    w := Vector.ofFn fun i : Fin 64 => if i.val < 16 then some (BitVec.ofNat 32 i.val) else none }

/-- The state s with one turn to come. -/
def withTurn (x : Turn) (s : State) : State := { s with agenda := [x] }

/-- A block in progress with n rounds done. -/
def inFlight (H : HashState) (M : MsgBlock) (n : Nat) : State :=
  { State.reset with
    phase := .run, t := BitVec.ofNat 7 n, hash := H, work := (varsAfter H M n).store
    w := Vector.ofFn fun i : Fin 64 => if i.val < max 16 n then some (schedAt M i.val) else none }

theorem inFlight_meets (H : HashState) (M : MsgBlock) (n : Nat) (h : n ≤ 64) : InFlight H M n (inFlight H M n) :=
  ⟨rfl, h, rfl, rfl, rfl, fun i => by simp [inFlight]⟩

theorem inFlight_consistent (H : HashState) (M : MsgBlock) (n : Nat) (h : n ≤ 64) :
    consistent (inFlight H M n) = true := by
  have ht : (BitVec.ofNat 7 n).toNat = n := by simp; omega
  refine (consistent_run rfl).2 ⟨(by decide : errorFieldsOk State.reset = true), runStorageOk_iff.2 ⟨?_, ⟨_, rfl⟩, ?_⟩⟩
  · show (BitVec.ofNat 7 n).toNat ≤ 64
    omega
  · intro i
    show (Option.isSome (inFlight H M n).w[i] = true ↔ i.val < max 16 (BitVec.ofNat 7 n).toNat)
    rw [ht, (inFlight_meets H M n h).2.2.2.2.2 i]
    split <;> simp_all

theorem witness_RotateRightMovesBits : (0 ≤ 31 ∧ 0 < 32) ∧ (31 ≤ 31 ∧ 31 < 32) := by decide
theorem witness_ShiftRightFillsZero : (31 ≤ 31 ∧ 32 - 31 ≤ 1 ∧ 1 ≤ 31) ∧ (1 ≤ 31 ∧ 32 - 1 ≤ 31) := by decide
theorem witness_ChoiceSelectsBits : 0 < 32 ∧ 31 < 32 := by decide
theorem witness_MajorityOfBits : 0 < 32 ∧ 31 < 32 := by decide
theorem witness_ScheduleRecurrence : 15 < 16 ∧ (16 ≤ 16 ∧ 16 < 64) ∧ (16 ≤ 63 ∧ 63 < 64) := by decide

/-- Two storages, two lists, that agree in the four words and differ in another one. -/
theorem witness_ScheduleNeedsFourWords :
    (let w := roundSixteen.w
     let w' := w.set 5 none
     w ≠ w' ∧ ∀ k, k = 2 ∨ k = 7 ∨ k = 15 ∨ k = 16 → w[16 - k]? = w'[16 - k]?) ∧
    (let ws : List Word := (List.range 16).map (BitVec.ofNat 32)
     let ws' := ws.set 5 0#32
     ws ≠ ws' ∧ 16 ≤ ws.length ∧ ws'.length = ws.length ∧
       ∀ k, k = 2 ∨ k = 7 ∨ k = 15 ∨ k = 16 → ws[ws.length - k]? = ws'[ws.length - k]?) := by
  refine ⟨⟨by decide, ?_⟩, ⟨by decide, by decide, by decide, ?_⟩⟩ <;> rintro k (rfl | rfl | rfl | rfl) <;> decide

theorem witness_DecodeOfEncode :
    (Instr.rsvRdLo 0x1B#5).wellFormed = true ∧ (Instr.rsvWrLo 0x1A#5 1#32).wellFormed = true ∧
    (Instr.rsvRdHi 0x1C#5).wellFormed = true ∧ (Instr.rsvWrHi 0x1F#5 1#32).wellFormed = true ∧
    (Instr.msgWr 15 0xFFFFFFFF#32).wellFormed = true := by decide

theorem witness_EncodeOfDecode :
    (decode 0x3FFFFFFFFF#38 = .ok (.rsvWrHi 0x1F#5 0xFFFFFFFF#32) ∧ TxnWord.we 0x3FFFFFFFFF#38 = true) ∧
    (decode 0x05DEADBEEF#38 = .ok (.msgRd 5) ∧ TxnWord.we 0x05DEADBEEF#38 = false) := by decide

/-- A word, the row it belongs to, and one that it does not. -/
theorem witness_EveryWordHasOneRow :
    0x3800000003#38 &&& 0x3F00000000#38 = 0x3800000000#38 ∧ 0x3800000003#38 &&& 0x3F00000000#38 ≠ 0x3900000000#38 ∧
    mkTxn true 0x18#5 3#32 = 0x3800000003#38 := by decide

theorem witness_EveryReadTransaction :
    let s := withTurn (.host 0x19FFFFFFFF#38) threeRounds
    Consistent s ∧ s.agenda = [.host 0x19FFFFFFFF#38] ∧ TxnWord.we 0x19FFFFFFFF#38 = false := by decide

theorem witness_StatusLayout :
    (State.reset.phase = .idle ∧ State.reset.err = false) ∧ foldReady.phase = .run ∧ Consistent foldReady ∧
    (15 ≤ 15 ∧ 15 ≤ 31) ∧ (15 ≤ 31 ∧ 31 ≤ 31) := by decide

theorem witness_MessageWriteStores : loaded.phase = .idle ∧ (1 : Fin 16) ≠ 0 := by decide
theorem witness_ReadOnlyWritesRecord :
    State.reset.phase = .idle ∧ refusedOnce.phase = .idle ∧ refusedOnce.err = true := by decide
theorem witness_ReservedWritesRecord :
    State.reset.phase = .idle ∧ refusedOnce.phase = .idle ∧ refusedOnce.err = true := by decide

/-- Busy; idle with each command bit set and clear and the reserved bits 0; idle with the lowest and with the highest reserved
bit alone. -/
theorem witness_CommandWrites :
    started.phase = .run ∧ State.reset.phase = .idle ∧ State.reset.err = false ∧ State.reset.errcode = 0#4 ∧
    BitVec.extractLsb' 3 29 7#32 = 0#29 ∧ (7#32).getLsbD 2 = true ∧ (7#32).getLsbD 1 = true ∧ (7#32).getLsbD 0 = true ∧
    BitVec.extractLsb' 3 29 0#32 = 0#29 ∧ (0#32).getLsbD 2 = false ∧ (0#32).getLsbD 1 = false ∧ (0#32).getLsbD 0 = false ∧
    BitVec.extractLsb' 3 29 8#32 ≠ 0#29 ∧ BitVec.extractLsb' 3 29 0x80000000#32 ≠ 0#29 := by decide

theorem witness_BusyWritesRecord :
    threeRounds.phase = .run ∧ threeRounds.err = false ∧ threeRoundsErr.phase = .run ∧ threeRoundsErr.err = true ∧
    (Instr.ctrlWr 4#32).isWrite = true := by decide

theorem witness_EveryWriteTransaction :
    (let s := withTurn (.host 0x3800000004#38) threeRounds
     Consistent s ∧ s.agenda = [.host 0x3800000004#38] ∧ s.phase = .run) ∧
    (let s := withTurn (.host 0x3800000004#38) refusedOnce
     Consistent s ∧ s.agenda = [.host 0x3800000004#38] ∧ s.phase = .idle) ∧ TxnWord.we 0x3800000004#38 = true := by decide

/-- Refused while busy; refused by address while idle; refused for a reserved bit while idle. -/
theorem witness_RefusedWritesOnlyRecord :
    (threeRounds.phase = .run ∧ (Instr.msgWr 0 1#32).isWrite = true) ∧
    ((∀ k d, Instr.hashWr 2 0#32 ≠ .msgWr k d) ∧ ∀ d, Instr.hashWr 2 0#32 = .ctrlWr d → d.extractLsb' 3 29 ≠ 0#29) ∧
    ((∀ k d, Instr.ctrlWr 8#32 ≠ .msgWr k d) ∧ ∀ d, Instr.ctrlWr 8#32 = .ctrlWr d → d.extractLsb' 3 29 ≠ 0#29) := by
  refine ⟨by decide, ⟨fun _ _ h => (by cases h), fun _ h => (by cases h)⟩, ⟨fun _ _ h => (by cases h), ?_⟩⟩
  intro d h
  injection h with h
  subst h
  decide

theorem witness_WriteErrorPriority :
    (let s := withTurn (.host 0x3000000000#38) threeRounds
     Consistent s ∧ s.agenda = [.host 0x3000000000#38] ∧ TxnWord.we 0x3000000000#38 = true ∧ s.err = false) ∧
    (let s := withTurn (.host 0x380000000C#38) refusedOnce
     Consistent s ∧ s.agenda = [.host 0x380000000C#38] ∧ s.err = true ∧ commandTurn 2 s = false) ∧
    (engineTurn threeRounds = true ∧ ∃ t, step threeRounds = .next t) :=
  ⟨by decide, by decide, by decide, _, rfl⟩

theorem witness_FirstErrorIsKept :
    State.reset.err = false ∧ refusedOnce.err = true ∧
    ∃ t, step (withTurn (.host 0x3200000000#38) State.reset) = .next t ∧ t.err = true :=
  ⟨rfl, rfl, _, rfl, rfl⟩

/-- A recorded error that a read leaves, that an accepted CLRERR clears, and that reset clears. -/
theorem witness_ErrorStaysUntilCleared :
    (∃ t, step (withTurn (.host 0x1900000000#38) refusedOnce) = .next t) ∧
    (∃ t, step (withTurn (.host 0x3800000004#38) refusedOnce) = .next t) ∧
    (∃ t, step (withTurn .reset refusedOnce) = .next t) ∧ refusedOnce.err = true :=
  ⟨⟨_, rfl⟩, ⟨_, rfl⟩, ⟨_, rfl⟩, rfl⟩

theorem witness_MessageWriters : ∃ t, step (withTurn (.host 0x2061626380#38) State.reset) = .next t := ⟨_, rfl⟩

/-- INIT, reset, a fold, and a step that is none of them. -/
theorem witness_HashWriters :
    (let s := withTurn (.host 0x3800000001#38) digestDone
     commandTurn 0 s = true ∧ ∃ t, step s = .next t) ∧
    (resetTurn (withTurn .reset digestDone) = true ∧ ∃ t, step (withTurn .reset digestDone) = .next t) ∧
    (foldTurn foldReady = true ∧ ∃ t, step foldReady = .next t) ∧
    (let s := withTurn (.host 0x3800000002#38) digestDone
     commandTurn 0 s = false ∧ resetTurn s = false ∧ foldTurn s = false ∧ ∃ t, step s = .next t) :=
  ⟨⟨by decide, _, rfl⟩, ⟨by decide, _, rfl⟩, ⟨by decide, _, rfl⟩, ⟨by decide, by decide, by decide, _, rfl⟩⟩

theorem witness_ValidFollowsFold :
    (foldTurn foldReady = true ∧ ∃ t, step foldReady = .next t) ∧
    (let s := withTurn (.host 0x3800000003#38) digestDone
     commandTurn 0 s = true ∧ ∃ t, step s = .next t) ∧
    (resetTurn (withTurn .reset digestDone) = true ∧ ∃ t, step (withTurn .reset digestDone) = .next t) ∧
    (foldTurn threeRounds = false ∧ commandTurn 0 threeRounds = false ∧ resetTurn threeRounds = false ∧
      ∃ t, step threeRounds = .next t) :=
  ⟨⟨by decide, _, rfl⟩, ⟨by decide, _, rfl⟩, ⟨by decide, _, rfl⟩, ⟨by decide, by decide, by decide, _, rfl⟩⟩

theorem witness_PhaseTransitions :
    (let s := withTurn (.host 0x3800000002#38) loaded
     s.phase = .idle ∧ commandTurn 1 s = true ∧ ∃ t, step s = .next t) ∧
    (foldReady.phase = .run ∧ ∃ t, step foldReady = .next t) :=
  ⟨⟨rfl, by decide, _, rfl⟩, ⟨rfl, _, rfl⟩⟩

/-- A refused write in the middle of a block. -/
theorem witness_EngineStateWriters :
    let s := withTurn (.host 0x20DEADBEEF#38) threeRounds
    commandTurn 1 s = false ∧ roundTurn s = false ∧ foldTurn s = false ∧ resetTurn s = false ∧ ∃ t, step s = .next t :=
  ⟨by decide, by decide, by decide, by decide, _, rfl⟩

/-- Idle; running with t at 0, 63 and 64. -/
theorem witness_EngineDispatch :
    (Consistent State.reset ∧ State.reset.phase = .idle) ∧
    (Consistent started ∧ started.phase = .run ∧ started.t.toNat = 0) ∧
    (let s := { foldReady with t := 63#7, w := foldReady.w.set 63 none }
     Consistent s ∧ s.phase = .run ∧ s.t.toNat = 63) ∧
    (Consistent foldReady ∧ foldReady.phase = .run ∧ foldReady.t.toNat = 64) := by decide

/-- Round 0, whose schedule word is stored, and round 16, the first one computed. -/
theorem witness_RoundStep :
    (started.phase = .run ∧ started.t.toNat = 0 ∧ started.w[started.t.toNat]? = some (some 0x61626380#32) ∧
      started.work = (seedVars IV).store) ∧
    (let s := roundSixteen
     s.phase = .run ∧ s.t.toNat = 16 ∧ s.work = (seedVars IV).store ∧
       s.w[s.t.toNat - 2]? = some (some 14#32) ∧ s.w[s.t.toNat - 7]? = some (some 9#32) ∧
       s.w[s.t.toNat - 15]? = some (some 1#32) ∧ s.w[s.t.toNat - 16]? = some (some 0#32)) := by decide

theorem witness_FoldStep :
    (foldReady.phase = .run ∧ foldReady.t.toNat = 64 ∧
      foldReady.work = ⟨some 0x6a09e667#32, some 0xbb67ae85#32, some 0x3c6ef372#32, some 0xa54ff53a#32,
        some 0x510e527f#32, some 0x9b05688c#32, some 0x1f83d9ab#32, some 0x5be0cd19#32⟩) ∧
    ∃ t, step foldReady = .next t ∧ t.hash ≠ foldReady.hash :=
  ⟨by decide, _, rfl, by decide⟩

theorem witness_RoundsOfBlock : 0 < 64 ∧ 63 < 64 := by decide

/-- NEXT alone, from a hash value that is not IV, and INIT with NEXT. -/
theorem witness_NextStartsBlock :
    (let s := withTurn (.host 0x3800000002#38) digestDone
     commandTurn 1 s = true ∧ commandTurn 0 s = false ∧ ∃ t, step s = .next t) ∧
    (let s := withTurn (.host 0x3800000003#38) digestDone
     commandTurn 1 s = true ∧ commandTurn 0 s = true ∧ ∃ t, step s = .next t) :=
  ⟨⟨by decide, by decide, _, rfl⟩, ⟨by decide, by decide, _, rfl⟩⟩

/-- An engine turn and a refused write at the start of a block, the last engine turn of a block, and reset. -/
theorem witness_BlockFollowsCompress :
    (InFlight IV abc 0 (inFlight IV abc 0) ∧ engineTurn (inFlight IV abc 0) = true ∧ 0 < 64 ∧
      ∃ t, step (inFlight IV abc 0) = .next t) ∧
    (InFlight IV abc 64 (inFlight IV abc 64) ∧ engineTurn (inFlight IV abc 64) = true ∧
      ∃ t, step (inFlight IV abc 64) = .next t) ∧
    (let s := withTurn .reset (inFlight IV abc 5)
     InFlight IV abc 5 s ∧ resetTurn s = true ∧ ∃ t, step s = .next t) ∧
    (let s := withTurn (.host 0x20DEADBEEF#38) (inFlight IV abc 5)
     InFlight IV abc 5 s ∧ engineTurn s = false ∧ resetTurn s = false ∧ ∃ t, step s = .next t) := by
  have e : ∀ n, n ≤ 64 → ∃ t, engineStep (inFlight IV abc n) = .next t := by
    intro n h
    have hc := inFlight_consistent IV abc n h
    obtain ⟨ht, ⟨v, hv⟩, hW⟩ := runStorageOk_iff.1 ((consistent_run rfl).1 hc).2
    by_cases h64 : (inFlight IV abc n).t.toNat < 64
    · obtain ⟨wt, hw⟩ := expandedWord_isSome h64 (w := (inFlight IV abc n).w) (fun i hi => (hW i).2 hi)
      exact ⟨_, engineStep_round rfl h64 hv hw⟩
    · exact ⟨_, engineStep_fold rfl (by omega) hv⟩
  have c5 := inFlight_consistent IV abc 5 (by omega)
  refine ⟨⟨inFlight_meets IV abc 0 (by omega), rfl, by omega, ?_⟩, ⟨inFlight_meets IV abc 64 (by omega), rfl, ?_⟩,
    ⟨inFlight_meets IV abc 5 (by omega), rfl, ?_⟩, ⟨inFlight_meets IV abc 5 (by omega), rfl, rfl, ?_⟩⟩
  · rw [step_empty (inFlight_consistent IV abc 0 (by omega)) rfl]; exact e 0 (by omega)
  · rw [step_empty (inFlight_consistent IV abc 64 (by omega)) rfl]; exact e 64 (by omega)
  · have hc : consistent (withTurn .reset (inFlight IV abc 5)) = true := (consistent_environment _ _ _).trans c5
    rw [step_turn (x := .reset) (rest := []) hc rfl]
    exact ⟨_, rfl⟩
  · have hc : consistent (withTurn (.host 0x20DEADBEEF#38) (inFlight IV abc 5)) = true :=
      (consistent_environment _ _ _).trans c5
    rw [step_turn (x := .host 0x20DEADBEEF#38) (rest := []) hc rfl, takeTurn, hostTurn_eq]
    exact exec_next _ _

/-- A block of 65 engine turns, with a STATUS read and a refused write among them. -/
theorem witness_BlockTakesSixtyFiveSteps :
    let before : List Turn := .host 0x1900000000#38 :: .host 0x20DEADBEEF#38 :: List.replicate 64 .engine
    let s := { inFlight IV abc 0 with agenda := before ++ [.engine] }
    Consistent s ∧ InFlight IV abc 0 s ∧ s.agenda = before ++ .engine :: [] ∧
      (∀ x ∈ before, onPort x = true ∧ x ≠ .reset) ∧ before.count .engine = 64 :=
  ⟨(consistent_environment _ _ _).trans (inFlight_consistent IV abc 0 (by omega)), inFlight_meets IV abc 0 (by omega), rfl,
    by decide, by decide⟩

theorem witness_RunningBlockEnds :
    let s := withTurn (.host 0x20DEADBEEF#38) threeRounds
    Consistent s ∧ s.phase = .run ∧ ∀ x ∈ s.agenda, onPort x = true ∧ x ≠ .reset := by decide

/-- An idle block and a running one with an error recorded; the blocks of an input, and none; a round of both agents. -/
theorem witness_HostProcedureGivesDigest :
    (Consistent State.reset ∧ State.reset.err = false ∧ [abc] ≠ [] ∧ blocksOf [0x61#8, 0x62#8, 0x63#8] = some [abc]) ∧
    (Consistent threeRoundsErr ∧ threeRoundsErr.err = true) ∧
    (Mover.host ∈ [Mover.engine, Mover.host] ∧ Mover.engine ∈ [Mover.engine, Mover.host]) ∧
    ∃ x, Session.run [] (Session.start State.reset []) = .next x ∧ x.program = [] :=
  ⟨by decide, by decide, by decide, _, rfl, rfl⟩

/-- A wait that reads BUSY = 1 stays; one that reads BUSY = 0 ends (rule R78). -/
theorem test_wait :
    (match Session.move .host (Session.start threeRounds [.wait]) with
      | .next x => some x.program
      | _ => none) = some [.wait] ∧
    (match Session.move .host (Session.start digestDone [.wait]) with
      | .next x => some x.program
      | _ => none) = some [] := by decide

/-- The lines of one block's digest: 1 wait, INIT, 16 loads, NEXT, 1 wait, 8 HASH reads, 1 STATUS read (rule R197). -/
theorem test_digestProgram :
    (digestProgram false [abc]).length = 1 + 1 + 16 + 1 + 1 + 8 + 1 ∧
    (digestProgram true [abc])[17]? = some (.txn (.wr .ctrl 3#32)) := by decide

theorem witness_StepKeepsInvariants : Consistent threeRounds ∧ ∃ t, step threeRounds = .next t := ⟨by decide, _, rfl⟩

/-- A host turn, an empty agenda, and an accepted bus access. -/
theorem witness_ConsistentStepsComplete :
    (let s := withTurn (.host 0x1900000000#38) foldReady
     Consistent s ∧ ∀ a, s.agenda.head? = some (.bus a) → ∃ T, busTransaction a = .ok T) ∧
    (Consistent State.reset ∧ ∀ a, State.reset.agenda.head? = some (.bus a) → ∃ T, busTransaction a = .ok T) ∧
    (let s := withTurn (.bus ⟨true, Config.coreBase, 4, 7#32⟩) State.reset
     Consistent s ∧ ∀ a, s.agenda.head? = some (.bus a) → ∃ T, busTransaction a = .ok T) := by
  refine ⟨⟨by decide, fun _ h => by cases h⟩, ⟨by decide, fun _ h => by cases h⟩,
    (consistent_environment _ _ _).trans (by decide : consistent State.reset = true), ?_⟩
  intro a h
  cases h
  exact ⟨mkTxn true (BitVec.ofNat 5 ((Config.coreBase - Config.coreBase) / 4)) 7#32, by
    simp [busTransaction, Config.coreBase]⟩

theorem witness_BrokenStatesFault :
    consistent { State.reset with t := 1#7 } = false ∧ 5 ≤ State.errcode { State.reset with err := true, errcode := 5#4 } := by
  decide

theorem witness_ResetEvent :
    let s := withTurn .reset threeRoundsErr
    Consistent s ∧ s.agenda = .reset :: [] := by decide

/-- The engine is offered a turn; there is none. -/
theorem witness_IdleBlockRests :
    (let s := withTurn .engine digestDone
     Consistent s ∧ s.phase = .idle ∧ engineTurn s = true) ∧
    (Consistent digestDone ∧ digestDone.phase = .idle ∧ engineTurn digestDone = true) := by decide

theorem witness_StepRunsTransaction :
    let s := withTurn (.host 0x3800000003#38) loaded
    Consistent s ∧ s.agenda = .host 0x3800000003#38 :: [] ∧ decode 0x3800000003#38 = .ok (.ctrlWr 3#32) := by decide

theorem witness_PlacedTransactionRunsNext :
    Consistent State.reset ∧ decodeTableWord 40 0x2061626380 = some (.msgWr 0 0x61626380#32) := by decide

/-- A bus access of the given byte address and width, next on the agenda after reset. -/
def busState (byteAddr bytes : Nat) : State := withTurn (.bus ⟨true, byteAddr, bytes, 7#32⟩) State.reset

/-- The first and the last location, a narrow access, a misaligned one, and one just past the port. -/
theorem witness_BusAccessReachesLocation :
    (Consistent (busState Config.coreBase 4) ∧ Config.coreBase = Config.coreBase + 4 * (0#5).toNat) ∧
    (Consistent (busState (Config.coreBase + 124) 4) ∧ Config.coreBase + 124 = Config.coreBase + 4 * (31#5).toNat) ∧
    (Consistent (busState Config.coreBase 2) ∧ 2 < 4) ∧
    (Consistent (busState (Config.coreBase + 1) 4) ∧ (Config.coreBase + 1) % 4 ≠ 0) ∧
    (Consistent (busState (Config.coreBase + 128) 4) ∧ (Config.coreBase + 128) % 4 = 0 ∧
      Config.coreBase + 4 * 32 ≤ Config.coreBase + 128) := by
  have hc : ∀ n k, Consistent (busState n k) := fun n k =>
    (consistent_environment _ _ _).trans (by decide : consistent State.reset = true)
  refine ⟨⟨hc _ _, rfl⟩, ⟨hc _ _, rfl⟩, ⟨hc _ _, by decide⟩, ⟨hc _ _, ?_⟩, hc _ _, ?_, Nat.le_refl _⟩ <;>
    simp only [Config.coreBase] <;> omega

/-- A step of one instance that completes. -/
theorem witness_InstancesAreIndependent :
    ∃ s', step Instances.reset.cores[(⟨0, by simp only [Config.nCores]; omega⟩ : Fin Config.nCores)] = .next s' := by
  have h : Instances.reset.cores[(⟨0, by simp only [Config.nCores]; omega⟩ : Fin Config.nCores)] = State.reset := by
    simp [Instances.reset]
  rw [h]
  exact ⟨_, rfl⟩

theorem witness_FrameLayout :
    let input : List Byte := [0x61#8]
    0 < input.length ∧ (input.length < 2 ∧ 2 < 64 * blockCount input.length - 8) ∧
      (input.length < 55 ∧ 55 < 64 * blockCount input.length - 8) := by decide

/-- The empty input, and inputs of one byte below the limit and at it (rule R196). -/
theorem witness_LengthFieldWords :
    (([] : List Byte).length < 2 ^ 61 ∧ 0 < 8 ∧ 7 < 8) ∧ (List.replicate (2 ^ 61 - 1) 0#8).length < 2 ^ 61 ∧
    2 ^ 61 ≤ (List.replicate (2 ^ 61) 0#8).length :=
  ⟨by decide, by rw [List.length_replicate]; omega, by rw [List.length_replicate]⟩

/-- The lowest and the highest remainder of the spill case; a whole block. -/
theorem witness_SpillBlock :
    56 ≤ (List.replicate 56 0#8).length % 64 ∧ 56 ≤ (List.replicate 63 0#8).length % 64 ∧
    ((List.replicate 64 0#8).length % 64 = 0 ∧ 0 < (List.replicate 64 0#8).length) := by decide

theorem witness_MessageWordsBigEndian : (List.replicate 64 0x61#8).length = 64 := by decide

theorem witness_DigestText :
    (digestBytes IV)[0]? = some 0x6a#8 ∧ (digestBytes IV)[31]? = some 0x19#8 := by decide

end Sys2Proof.Tests
end

section
/-! PROOF. The two word operations of the specification's notation section (rules R7 and R8), by the library's
operations on bit vectors. -/

namespace Sys2Proof.Machine

/-- The model's two shifts are the library's rotation, so its lemmas apply. -/
theorem rotr_eq_rotateRight (x : Word) {n : Nat} (hn : n ≤ 31) : rotr x n = x.rotateRight n := by
  rw [rotr, BitVec.rotateRight_def, Nat.mod_eq_of_lt (by omega)]

/-- Rule R7, bit by bit: no wrap below bit `32 - n`, a wrap by 32 from there on. -/
theorem getLsbD_rotr (x : Word) {n i : Nat} (hn : n ≤ 31) (hi : i < 32) :
    (rotr x n).getLsbD i = x.getLsbD ((i + n) % 32) := by
  rw [rotr_eq_rotateRight x hn, BitVec.getLsbD_rotateRight, Nat.mod_eq_of_lt (show n < 32 by omega)]
  by_cases hwrap : i < 32 - n
  · have hmod : (i + n) % 32 = n + i := by omega
    simp [hwrap, hmod]
  · have hmod : (i + n) % 32 = i - (32 - n) := by omega
    simp [hwrap, hmod, hi]

/-- Rule R7's formula by shifts. The right shift fits in 32 bits, so the reduction may be taken of the whole. -/
theorem toNat_rotr (x : Word) (n : Nat) :
    (rotr x n).toNat = (x.toNat / 2 ^ n ||| x.toNat * 2 ^ (32 - n)) % 2 ^ 32 := by
  have hfits : x.toNat / 2 ^ n % 2 ^ 32 = x.toNat / 2 ^ n :=
    Nat.mod_eq_of_lt (Nat.lt_of_le_of_lt (Nat.div_le_self _ _) x.isLt)
  rw [rotr, BitVec.toNat_or, BitVec.toNat_ushiftRight, BitVec.toNat_shiftLeft, Nat.shiftRight_eq_div_pow,
    Nat.shiftLeft_eq, Nat.or_mod_two_pow, hfits]

@[simp] theorem rotr_zero (x : Word) : rotr x 0 = x := by
  refine BitVec.eq_of_getLsbD_eq fun i hi => ?_
  rw [getLsbD_rotr x (Nat.zero_le 31) hi, Nat.add_zero, Nat.mod_eq_of_lt hi]

theorem toNat_shr (x : Word) (n : Nat) : (shr x n).toNat = x.toNat / 2 ^ n := by
  rw [shr, BitVec.toNat_ushiftRight, Nat.shiftRight_eq_div_pow]

@[simp] theorem getLsbD_shr (x : Word) (n i : Nat) : (shr x n).getLsbD i = x.getLsbD (n + i) :=
  BitVec.getLsbD_ushiftRight x n i

/-- Settles O1: `rotr` is the library's rotation, and the formula is the definition read in `Nat`. -/
theorem rotateRightMovesBits : Obligations.RotateRightMovesBits :=
  fun x n hn => ⟨fun _ hi => getLsbD_rotr x hn hi, toNat_rotr x n, rotr_zero x⟩

/-- Settles O2: bit `i` of `shr x n` is bit `n + i` of `x`, which lies past the word when `32 - n ≤ i`. -/
theorem shiftRightFillsZero : Obligations.ShiftRightFillsZero := by
  intro x n _
  refine ⟨toNat_shr x n, fun i hlow _ => ?_⟩
  rw [getLsbD_shr]
  exact BitVec.getLsbD_of_ge x (n + i) (by omega)

end Sys2Proof.Machine
end

section
/-! PROOF. The state's view and its VALID flag: what STATUS shows of a state (rule R25), and which steps write VALID
(rule R29). -/

namespace Sys2Proof.Machine

/-- BUSY, as a statement about the phase. -/
theorem busy_iff {s : State} : busy s = true ↔ s.phase = .run := by
  unfold busy; cases s.phase <;> simp

/-- ROUND, as a choice on the phase. -/
theorem roundField_eq (s : State) : roundField s = if s.phase = .run then s.t else 0#7 := by
  unfold roundField; cases s.phase <;> simp

/-- Rule R36 bounds t at 64 in either phase. -/
theorem consistent_t_le {s : State} (hc : consistent s = true) : s.t.toNat ≤ 64 := by
  cases hp : s.phase with
  | idle =>
    obtain ⟨ht, -, -⟩ := idleStorageOk_iff.1 ((consistent_idle hp).1 hc).2
    simp [ht]
  | run => exact (runStorageOk_iff.1 ((consistent_run hp).1 hc).2).1

/-- Rule R36 bounds ERRCODE at 4 in either phase. -/
theorem consistent_errcode_le {s : State} (hc : consistent s = true) : s.errcode.toNat ≤ 4 := by
  have he : errorFieldsOk s = true := (Bool.and_eq_true_iff.1 hc).1
  exact (errorFieldsOk_iff.1 he).2

/-- The ROUND field shows t or 0, so rule R36's bound on t is a bound on it. -/
theorem roundField_le {s : State} (hc : consistent s = true) : (roundField s).toNat ≤ 64 := by
  rw [roundField_eq]
  split
  · exact consistent_t_le hc
  · simp

/-- A STATUS write while idle and with no error recorded is a refused write, recorded with code 2 (rule R162). -/
theorem exec_statusWr_idle (d : Word) {s : State} (hp : s.phase = .idle) (he : s.err = false) :
    exec (.statusWr d) s = .next { s with rdata := none, err := true, errcode := 2#4 } := by
  rw [exec_of_write rfl, gate_idle _ (by simpa using hp), writeRule, recordError_eq]
  simp [respondNothing, he, ErrorName.code]

/-- Settles O18: each clause reads one field off the STATUS word; the bounds are those of rule R36. -/
theorem statusLayout : Obligations.StatusLayout := by
  refine ⟨fun s => ⟨?_, ?_, ?_, ?_, statusWord_errcode s, ?_, ?_, exec_of_read rfl s, ?_⟩, fun s hc => ⟨?_, ?_⟩, by decide⟩
  · rw [getLsbD_statusWord]; exact busy_iff
  · exact getLsbD_statusWord s 1
  · exact getLsbD_statusWord s 2
  · exact getLsbD_statusWord s 3
  · rw [statusWord_round, roundField_eq]
  · intro i hlow _
    have hpast : ¬ i < 15 := by omega
    simp [getLsbD_statusWord, hpast, show i ≠ 0 by omega, show i ≠ 1 by omega, show i ≠ 2 by omega,
      show ¬ i < 8 by omega]
  · exact fun d hp he => exec_statusWr_idle d hp he
  · rw [statusWord_errcode]; exact consistent_errcode_le hc
  · rw [statusWord_round]; exact roundField_le hc

/-- A turn of the host or of reset is no fold. -/
theorem foldTurn_of_not_engineTurn {s : State} (h : engineTurn s = false) : foldTurn s = false := by
  simp [foldTurn, h]

/-- An idle engine folds nothing. -/
theorem foldTurn_idle {s : State} (hp : s.phase = .idle) : foldTurn s = false := by
  simp [foldTurn, busy, hp]

/-- An engine turn before t = 64 is no fold. -/
theorem foldTurn_of_lt {s : State} (ht : s.t.toNat < 64) : foldTurn s = false := by
  simp [foldTurn, Nat.ne_of_lt ht]

/-- Reset's turn is not the engine's. -/
theorem engineTurn_of_resetTurn {s : State} (h : resetTurn s = true) : engineTurn s = false := by
  unfold resetTurn at h
  unfold engineTurn
  cases ha : s.agenda with
  | nil => simp [ha] at h
  | cons x rest =>
    have hx : x = .reset := by simpa [ha] using h
    simp [hx]

/-- Reset is no fold. -/
theorem foldTurn_of_resetTurn {s : State} (h : resetTurn s = true) : foldTurn s = false :=
  foldTurn_of_not_engineTurn (engineTurn_of_resetTurn h)

/-- An accepted command finds the engine idle (rule R151), so it is no fold. -/
theorem foldTurn_of_commandTurn {s : State} {bit : Nat} (h : commandTurn bit s = true) : foldTurn s = false := by
  cases hp : s.phase with
  | idle => exact foldTurn_idle hp
  | run => simp [commandTurn_run hp] at h

/-- An accepted command writes VALID exactly where it has INIT set (rule R158). -/
theorem command_valid {d : Word} (h : ctrlReserved d = 0#29) (s : State) :
    (command d s).valid = if d.getLsbD 0 then false else s.valid := by
  rw [command_eq h]; rfl

/-- VALID after a step, over all nine forms of a step: only fold, INIT and reset write it (rule R29). -/
theorem step_valid {s t : State} (h : step s = .next t) :
    t.valid = if foldTurn s then true else if commandTurn 0 s || resetTurn s then false else s.valid := by
  obtain ⟨-, hidle | hround | hfold | hreset | hread | hbusy | hmsg | hrefused | hcommand⟩ := step_forms h
  · obtain ⟨-, hr, hi, hp, rfl⟩ := hidle
    simp [foldTurn_idle hp, commandTurn_none hi, hr]
  · obtain ⟨-, hr, hi, -, ht, v, wt, -, -, rfl⟩ := hround
    simp [foldTurn_of_lt ht, commandTurn_none hi, hr]
  · obtain ⟨he, -, -, hp, ht, v, -, rfl⟩ := hfold
    simp [foldTurn_iff.2 ⟨he, hp, ht⟩]
  · obtain ⟨he, hr, -, rfl⟩ := hreset
    simp [foldTurn_of_not_engineTurn he, hr]
  · obtain ⟨he, hr, i, hi, hw, rfl⟩ := hread
    simp [foldTurn_of_not_engineTurn he, commandTurn_read hi hw, hr]
  · obtain ⟨he, hr, i, -, -, hp, rfl⟩ := hbusy
    simp [foldTurn_of_not_engineTurn he, commandTurn_run hp, hr]
  · obtain ⟨he, hr, -, i, d, hi, rfl⟩ := hmsg
    have hno : commandTurn 0 s = false := commandTurn_other hi (by simp) 0
    simp [foldTurn_of_not_engineTurn he, hno, hr]
  · obtain ⟨he, hr, -, i, e, hi, -, -, href, rfl⟩ := hrefused
    simp [foldTurn_of_not_engineTurn he, commandTurn_refused hi href, hr]
  · obtain ⟨he, hr, hp, d, hi, hd, rfl⟩ := hcommand
    simp [foldTurn_of_not_engineTurn he, commandTurn_accepted hp hi hd, command_valid hd, hr]

/-- Settles O31: `step_valid` clause by clause; a fold coincides with neither INIT nor reset. -/
theorem validFollowsFold : Obligations.ValidFollowsFold := by
  intro s t h
  have hv := step_valid h
  refine ⟨fun hf => ?_, fun hcmd => ?_, fun hr => ?_, fun hf hcmd hr => ?_, rfl⟩
  · simp [hv, hf]
  · simp [hv, foldTurn_of_commandTurn hcmd, hcmd]
  · simp [hv, foldTurn_of_resetTurn hr, hr]
  · simp [hv, hf, hcmd, hr]

end Sys2Proof.Machine
end

section
/-! PROOF. The host's serialization: message words from bytes (rule R51) and digest bytes from words (rule R52). A word's
four bytes and the word packed from four bytes are each other's inverses; the digest is the concatenation of the words'
bytes, indexed by word and byte. -/

namespace Sys2Proof.Machine

/-- Rule R51 for one word: the bytes of a packed word are the bytes it was packed from, the first most significant. -/
theorem extractLsb'_packWord (b0 b1 b2 b3 : Byte) :
    (packWord b0 b1 b2 b3).extractLsb' 24 8 = b0 ∧ (packWord b0 b1 b2 b3).extractLsb' 16 8 = b1 ∧
    (packWord b0 b1 b2 b3).extractLsb' 8 8 = b2 ∧ (packWord b0 b1 b2 b3).extractLsb' 0 8 = b3 := by
  unfold packWord
  refine ⟨?_, ?_, ?_, BitVec.extractLsb'_append_eq_right⟩
  · exact BitVec.extractLsb'_append_eq_of_le (by decide) |>.trans <|
      BitVec.extractLsb'_append_eq_of_le (by decide) |>.trans BitVec.extractLsb'_append_eq_left
  · exact BitVec.extractLsb'_append_eq_of_le (by decide) |>.trans <|
      BitVec.extractLsb'_append_eq_of_le (by decide) |>.trans BitVec.extractLsb'_append_eq_right
  · exact BitVec.extractLsb'_append_eq_of_le (by decide) |>.trans BitVec.extractLsb'_append_eq_right

/-- Packing a word's own bytes, most significant first, gives the word back. -/
theorem packWord_extractLsb' (x : Word) :
    packWord (x.extractLsb' 24 8) (x.extractLsb' 16 8) (x.extractLsb' 8 8) (x.extractLsb' 0 8) = x := by
  rw [packWord, BitVec.extractLsb'_append_extractLsb'_eq_extractLsb' (show 24 = 16 + 8 from rfl),
    BitVec.extractLsb'_append_extractLsb'_eq_extractLsb' (show 16 = 8 + 8 from rfl),
    BitVec.extractLsb'_append_extractLsb'_eq_extractLsb' (show 8 = 0 + 8 from rfl)]
  exact BitVec.extractLsb'_eq_self

theorem getElem_packBlock (bytes : List Byte) (k : Nat) (i : Fin 16) :
    (packBlock bytes k)[i] =
      packWord (byteAt bytes (64 * k + 4 * i.val)) (byteAt bytes (64 * k + 4 * i.val + 1))
        (byteAt bytes (64 * k + 4 * i.val + 2)) (byteAt bytes (64 * k + 4 * i.val + 3)) := by
  simp [packBlock]

/-- Settles O58: each word of a block is packed from its four bytes. -/
theorem messageWordsBigEndian : Obligations.MessageWordsBigEndian := by
  intro B _ i
  rw [getElem_packBlock, Nat.mul_zero, Nat.zero_add]
  exact extractLsb'_packWord ..

@[simp] theorem length_wordBytes (x : Word) : (wordBytes x).length = 4 := rfl

/-- Rule R52 for one word: byte j is the j-th from the top. -/
theorem getElem?_wordBytes (x : Word) (j : Fin 4) : (wordBytes x)[j.val]? = some (x.extractLsb' (24 - 8 * j.val) 8) := by
  fin_cases j <;> rfl

/-- The bytes of a sequence of words, indexed by word and byte. -/
theorem getElem?_flatMap_wordBytes (words : List Word) (i : Nat) (j : Fin 4) :
    (words.flatMap wordBytes)[4 * i + j.val]? = words[i]?.map fun x => x.extractLsb' (24 - 8 * j.val) 8 := by
  induction words generalizing i with
  | nil => simp
  | cons x words ih =>
    rw [List.flatMap_cons]
    cases i with
    | zero =>
      rw [List.getElem?_append_left (by simp), Nat.mul_zero, Nat.zero_add, getElem?_wordBytes]
      rfl
    | succ i =>
      have hpast : 4 * (i + 1) + j.val - (wordBytes x).length = 4 * i + j.val := by
        rw [length_wordBytes]; omega
      rw [List.getElem?_append_right (by rw [length_wordBytes]; omega), hpast, ih, List.getElem?_cons_succ]

/-- Rule R52: words in order. -/
theorem digestBytes_eq_flatMap (H : HashState) : digestBytes H = H.toList.flatMap wordBytes := by
  have hwords : H.toList = [H[0], H[1], H[2], H[3], H[4], H[5], H[6], H[7]] :=
    List.ext_getElem (by simp) fun i hi _ => by
      have hlt : i < 8 := by simpa using hi
      interval_cases i <;> simp
  simp [hwords, digestBytes]

@[simp] theorem length_digestBytes (H : HashState) : (digestBytes H).length = 32 := rfl

/-- Rule R52: the position of each byte of each word. -/
theorem getElem?_digestBytes (H : HashState) (i : Fin 8) (j : Fin 4) :
    (digestBytes H)[4 * i.val + j.val]? = some (H[i].extractLsb' (24 - 8 * j.val) 8) := by
  rw [digestBytes_eq_flatMap, getElem?_flatMap_wordBytes]
  simp

theorem byteAt_digestBytes (H : HashState) (i : Fin 8) (j : Fin 4) :
    byteAt (digestBytes H) (4 * i.val + j.val) = H[i].extractLsb' (24 - 8 * j.val) 8 := by
  rw [byteAt, List.getD_eq_getElem?_getD, getElem?_digestBytes, Option.getD_some]

theorem getElem_hashOfBytes (bytes : List Byte) (i : Fin 8) :
    (hashOfBytes bytes)[i] =
      packWord (byteAt bytes (4 * i.val)) (byteAt bytes (4 * i.val + 1)) (byteAt bytes (4 * i.val + 2))
        (byteAt bytes (4 * i.val + 3)) := by
  simp [hashOfBytes]

/-- Deserializing undoes serializing, word by word. -/
@[simp] theorem hashOfBytes_digestBytes (H : HashState) : hashOfBytes (digestBytes H) = H := by
  refine Vector.ext fun i hi => ?_
  have hbyte := byteAt_digestBytes H ⟨i, hi⟩
  calc (hashOfBytes (digestBytes H))[i]
      = packWord (byteAt (digestBytes H) (4 * i)) (byteAt (digestBytes H) (4 * i + 1))
          (byteAt (digestBytes H) (4 * i + 2)) (byteAt (digestBytes H) (4 * i + 3)) :=
        getElem_hashOfBytes (digestBytes H) ⟨i, hi⟩
    _ = packWord (H[i].extractLsb' 24 8) (H[i].extractLsb' 16 8) (H[i].extractLsb' 8 8) (H[i].extractLsb' 0 8) :=
        congr (congr (congr (congrArg packWord (hbyte 0)) (hbyte 1)) (hbyte 2)) (hbyte 3)
    _ = H[i] := packWord_extractLsb' H[i]

/-- Settles O59: length, position of each byte, and the round trip. -/
theorem digestBytesBigEndian : Obligations.DigestBytesBigEndian :=
  fun H => ⟨length_digestBytes H, getElem?_digestBytes H, hashOfBytes_digestBytes H⟩

end Sys2Proof.Machine
end

section
/-! PROOF. The opcode map as a partition (rule R74): a row covers a word exactly where its name is the one that WE and
ADDR select, and each name stands in the map once. -/

namespace Sys2Proof

/-- The match of rule R74, as the equation the rule writes. -/
theorem Row.covers_iff (r : Row) (T : TxnWord) : r.covers T = true ↔ T &&& r.mask = r.fixed := beq_iff_eq

/-- A row of the map covers a word exactly where WE and ADDR select it. WDATA is gone after `covers_mkTxn`, so what is
left is a finite fact about the 64 values of WE and ADDR. -/
theorem covers_iff_name_eq_rowOf (we : Bool) (a : PortAddr) (d : Word) :
    ∀ r ∈ opcodeRows, (r.covers (mkTxn we a d) = true ↔ r.name = rowOf we a) := by
  rw [opcodeRows_eq]
  simp only [List.forall_mem_cons, List.not_mem_nil, false_imp_iff, implies_true, covers_mkTxn]
  revert we a
  decide

/-- Every name stands in the map. -/
theorem exists_mem_opcodeRows_name (n : RowName) : ∃ r ∈ opcodeRows, r.name = n := by
  cases n <;> decide

/-- No name stands in the map twice. -/
theorem eq_of_mem_opcodeRows_of_name_eq :
    ∀ r ∈ opcodeRows, ∀ r' ∈ opcodeRows, r'.name = r.name → r' = r := by decide

/-- Rule R74: exactly one row of the map covers a word, and the decoder gives that row's instruction. -/
theorem exists_unique_row (T : TxnWord) :
    ∃ r ∈ opcodeRows, r.covers T = true ∧ (∀ r' ∈ opcodeRows, r'.covers T = true → r' = r) ∧
      decode T = .ok (r.name.operands T) := by
  have hcovers := covers_iff_name_eq_rowOf T.we T.addr T.wdata
  rw [mkTxn_fields] at hcovers
  obtain ⟨r, hr, hname⟩ := exists_mem_opcodeRows_name (rowOf T.we T.addr)
  refine ⟨r, hr, (hcovers r hr).2 hname, fun r' hr' hcov => ?_, by rw [decode_eq, hname]⟩
  exact eq_of_mem_opcodeRows_of_name_eq r hr r' hr' (((hcovers r' hr').1 hcov).trans hname.symm)

/-- Rule R74: two words that differ in WDATA alone belong to the same rows. -/
theorem covers_mkTxn_congr_wdata (we : Bool) (a : PortAddr) (d d' : Word) {r : Row} (hr : r ∈ opcodeRows) :
    r.covers (mkTxn we a d) = true ↔ r.covers (mkTxn we a d') = true :=
  (covers_iff_name_eq_rowOf we a d r hr).trans (covers_iff_name_eq_rowOf we a d' r hr).symm

/-- A row as rule R74's table writes it: name, mask and match. -/
def Row.columns (r : Row) : RowName × TxnWord × TxnWord := (r.name, r.mask, r.fixed)

/-- Settles O12: the twelve rows written out are the columns of the model's map, where each name stands once and a row
covers what WE and ADDR select for it. -/
theorem everyWordHasOneRow : Obligations.EveryWordHasOneRow := by
  unfold Obligations.EveryWordHasOneRow
  intro rows
  have hrows : rows = opcodeRows.map Row.columns := rfl
  rw [hrows]
  constructor
  · intro T
    obtain ⟨r, hr, hcov, huniq, hdec⟩ := exists_unique_row T
    refine ⟨r.columns, List.mem_map_of_mem hr, (r.covers_iff T).1 hcov,
      List.forall_mem_map.2 fun r' hr' h => ?_, hdec⟩
    rw [huniq r' hr' ((r'.covers_iff T).2 h)]
  · intro we a d d'
    refine List.forall_mem_map.2 fun r hr => ?_
    exact (r.covers_iff _).symm.trans <| (covers_mkTxn_congr_wdata we a d d' hr).trans (r.covers_iff _)

end Sys2Proof
end

section
/-! PROOF. The message schedule (41_schedule.md): rotation and shift distribute over xor, hence so do σ0 and σ1 (rules R102
and R104); a schedule grown by n words is where every longer one starts, which turns the list that `sched` grows into the
recurrence of rule R100. -/

namespace Sys2Proof.Machine

theorem rotr_xor (x y : Word) {n : Nat} (hn : n ≤ 31) : rotr (x ^^^ y) n = rotr x n ^^^ rotr y n := by
  refine BitVec.eq_of_getLsbD_eq fun i hi => ?_
  simp only [BitVec.getLsbD_xor, getLsbD_rotr _ hn hi]

theorem shr_xor (x y : Word) (n : Nat) : shr (x ^^^ y) n = shr x n ^^^ shr y n :=
  BitVec.ushiftRight_xor_distrib x y n

theorem smallSigma0_xor (x y : Word) : smallSigma0 (x ^^^ y) = smallSigma0 x ^^^ smallSigma0 y := by
  simp only [smallSigma0, shr_xor, rotr_xor x y (show 7 ≤ 31 by decide), rotr_xor x y (show 18 ≤ 31 by decide)]
  ac_rfl

theorem smallSigma1_xor (x y : Word) : smallSigma1 (x ^^^ y) = smallSigma1 x ^^^ smallSigma1 y := by
  simp only [smallSigma1, shr_xor, rotr_xor x y (show 17 ≤ 31 by decide), rotr_xor x y (show 19 ≤ 31 by decide)]
  ac_rfl

@[simp] theorem smallSigma0_zero : smallSigma0 0#32 = 0#32 := by decide

@[simp] theorem smallSigma1_zero : smallSigma1 0#32 = 0#32 := by decide

/-- Settles O3: the formulas are the definitions, xor passes through each rotation and shift, and the worked examples are
evaluated. -/
theorem smallSigmas : Obligations.SmallSigmas :=
  ⟨fun _ => rfl, fun _ => rfl, smallSigma0_xor, smallSigma1_xor, smallSigma0_zero, by decide, by decide,
    smallSigma1_zero, by decide, by decide⟩

/-- Growing a schedule by m words and then by n is growing it by m + n. -/
theorem growSchedule_add (m n : Nat) (ws : List Word) :
    growSchedule (m + n) ws = growSchedule n (growSchedule m ws) := by
  induction m generalizing ws with
  | zero => rw [Nat.zero_add, growSchedule]
  | succ m ih => rw [Nat.succ_add, growSchedule, ih, growSchedule]

theorem length_growSchedule_toList (n : Nat) (M : MsgBlock) : (growSchedule n M.toList).length = 16 + n := by
  rw [growSchedule_length, Vector.length_toList]

theorem length_sched (M : MsgBlock) : (sched M).length = 64 := length_growSchedule_toList 48 M

/-- Sched(M) begins with what n steps of growth make of M, for every n up to 48. -/
theorem schedAt_eq_growSchedule_getD (M : MsgBlock) {n k : Nat} (hn : n ≤ 48) (hk : k < 16 + n) :
    schedAt M k = (growSchedule n M.toList).getD k 0#32 := by
  rw [schedAt, sched, show 48 = n + (48 - n) by omega, growSchedule_add]
  exact growSchedule_getD (48 - n) _ k (by rwa [length_growSchedule_toList])

/-- The first sixteen words are the block's own (rule R100). -/
theorem schedAt_eq_getElem (M : MsgBlock) {t : Nat} (ht : t < 16) : schedAt M t = M[t] := by
  rw [schedAt_eq_growSchedule_getD M (Nat.zero_le 48) ht, growSchedule,
    List.getD_eq_getElem _ _ (by rwa [Vector.length_toList]), Vector.getElem_toList]

/-- The word after the first 16 + n is the one that those give. -/
theorem schedAt_eq_nextScheduleWord (M : MsgBlock) {n : Nat} (hn : n < 48) :
    schedAt M (16 + n) = nextScheduleWord (growSchedule n M.toList) := by
  have hlen := length_growSchedule_toList n M
  rw [schedAt_eq_growSchedule_getD M (show n + 1 ≤ 48 from hn) (by omega), growSchedule_add n 1, growSchedule,
    growSchedule, ← hlen, List.getD_append_right _ _ _ _ (Nat.le_refl _), Nat.sub_self, List.getD_cons_zero]

/-- The recurrence of rule R100. -/
theorem schedAt_recurrence (M : MsgBlock) {t : Nat} (hlow : 16 ≤ t) (hhigh : t < 64) :
    schedAt M t =
      smallSigma1 (schedAt M (t - 2)) + schedAt M (t - 7) + smallSigma0 (schedAt M (t - 15)) + schedAt M (t - 16) := by
  obtain ⟨n, rfl⟩ := Nat.exists_eq_add_of_le hlow
  have hlen := length_growSchedule_toList n M
  have hback : ∀ k, 0 < k → schedAt M (16 + n - k) = (growSchedule n M.toList).getD (16 + n - k) 0#32 :=
    fun k hk => schedAt_eq_growSchedule_getD M (by omega) (by omega)
  rw [schedAt_eq_nextScheduleWord M (by omega), nextScheduleWord, expandWord, hlen, hback 2 (by decide),
    hback 7 (by decide), hback 15 (by decide), hback 16 (by decide)]

/-- Words 16 and 17 are made of words of the block alone. -/
theorem schedAt_eq_of_le_17 (M : MsgBlock) {t : Nat} (hlow : 16 ≤ t) (hhigh : t ≤ 17) :
    schedAt M t = smallSigma1 M[t - 2] + M[t - 7] + smallSigma0 M[t - 15] + M[t - 16] := by
  rw [schedAt_recurrence M hlow (by omega), schedAt_eq_getElem M (by omega), schedAt_eq_getElem M (by omega),
    schedAt_eq_getElem M (by omega), schedAt_eq_getElem M (by omega)]

/-- The corner case of rule R100: the recurrence makes zero of four zeros. -/
theorem schedAt_zero_block {t : Nat} (ht : t < 64) : schedAt (Vector.replicate 16 0#32) t = 0#32 := by
  induction t using Nat.strong_induction_on with
  | h t ih =>
    by_cases hown : t < 16
    · rw [schedAt_eq_getElem _ hown, Vector.getElem_replicate]
    · rw [schedAt_recurrence _ (by omega) ht, ih (t - 2) (by omega) (by omega), ih (t - 7) (by omega) (by omega),
        ih (t - 15) (by omega) (by omega), ih (t - 16) (by omega) (by omega)]
      simp

/-- Settles O8: the first sixteen words and the recurrence; the worked example is evaluated on words of its block. -/
theorem scheduleRecurrence : Obligations.ScheduleRecurrence :=
  ⟨fun M => ⟨length_sched M, fun _ => schedAt_eq_getElem M, fun _ => schedAt_recurrence M⟩,
    fun _ => schedAt_zero_block,
    (schedAt_eq_of_le_17 _ (by decide) (by decide)).trans (by decide),
    (schedAt_eq_of_le_17 _ (by decide) (by decide)).trans (by decide)⟩

end Sys2Proof.Machine
end

section
/-! PROOF. The compression engine (42_compression.md). The four round functions bit by bit (rules R120 to R123); the round and
the fold as one record each (rules R130 and R131), from the laws of the engine's step; and H over every form of a step. -/

namespace Sys2Proof.Machine

theorem bigSigma0_xor (x y : Word) : bigSigma0 (x ^^^ y) = bigSigma0 x ^^^ bigSigma0 y := by
  simp only [bigSigma0, rotr_xor x y (show 2 ≤ 31 by decide), rotr_xor x y (show 13 ≤ 31 by decide),
    rotr_xor x y (show 22 ≤ 31 by decide)]
  ac_rfl

theorem bigSigma1_xor (x y : Word) : bigSigma1 (x ^^^ y) = bigSigma1 x ^^^ bigSigma1 y := by
  simp only [bigSigma1, rotr_xor x y (show 6 ≤ 31 by decide), rotr_xor x y (show 11 ≤ 31 by decide),
    rotr_xor x y (show 25 ≤ 31 by decide)]
  ac_rfl

theorem bigSigma0_IV : bigSigma0 IV[0] = 0xce20b47e#32 := by decide

theorem bigSigma1_IV : bigSigma1 IV[4] = 0x3587272b#32 := by decide

/-- Settles O4: the formulas are the definitions, xor passes through each rotation, and the worked examples are evaluated. -/
theorem bigSigmas : Obligations.BigSigmas :=
  ⟨fun _ => rfl, fun _ => rfl, bigSigma0_xor, bigSigma1_xor, by decide, by decide, bigSigma0_IV, by decide, by decide,
    bigSigma1_IV⟩

/-- Rule R122, bit by bit. -/
theorem getLsbD_choose (e f g : Word) {i : Nat} (hi : i < 32) :
    (choose e f g).getLsbD i = if e.getLsbD i then f.getLsbD i else g.getLsbD i := by
  rw [choose, BitVec.getLsbD_xor, BitVec.getLsbD_and, BitVec.getLsbD_and, BitVec.getLsbD_not]
  cases e.getLsbD i <;> simp [hi]

@[simp] theorem choose_allOnes (f g : Word) : choose (BitVec.allOnes 32) f g = f := by
  refine BitVec.eq_of_getLsbD_eq fun i hi => ?_
  rw [getLsbD_choose _ _ _ hi, BitVec.getLsbD_allOnes, decide_eq_true hi, if_pos rfl]

@[simp] theorem choose_zero (f g : Word) : choose 0#32 f g = g := by
  refine BitVec.eq_of_getLsbD_eq fun i hi => ?_
  rw [getLsbD_choose _ _ _ hi, BitVec.getLsbD_zero, if_neg Bool.false_ne_true]

@[simp] theorem choose_self (e f : Word) : choose e f f = f := by
  refine BitVec.eq_of_getLsbD_eq fun i hi => ?_
  rw [getLsbD_choose _ _ _ hi, ite_self]

theorem choose_IV : choose IV[4] IV[5] IV[6] = 0x1f85c98c#32 := by decide

/-- Settles O5: each corner case is the bitwise choice with e or with f = g known. -/
theorem choiceSelectsBits : Obligations.ChoiceSelectsBits :=
  fun e f g => ⟨rfl, fun _ => getLsbD_choose e f g, choose_allOnes f g, choose_zero f g, choose_self e f, choose_IV⟩

/-- Rule R123, bit by bit: at most one of the three conjunctions holds, or all do, so their xor is their disjunction. -/
theorem getLsbD_majority (a b c : Word) (i : Nat) :
    (majority a b c).getLsbD i = (a.getLsbD i && (b.getLsbD i || c.getLsbD i) || b.getLsbD i && c.getLsbD i) := by
  simp only [majority, BitVec.getLsbD_xor, BitVec.getLsbD_and]
  generalize a.getLsbD i = p, b.getLsbD i = q, c.getLsbD i = r
  revert p q r
  decide

/-- Rule R123's count. -/
theorem two_le_toNat_add_iff (p q r : Bool) : (p && (q || r) || q && r) = true ↔ 2 ≤ p.toNat + q.toNat + r.toNat := by
  revert p q r
  decide

@[simp] theorem majority_self (a b : Word) : majority a a b = a := by
  refine BitVec.eq_of_getLsbD_eq fun i _ => ?_
  rw [getLsbD_majority]
  cases a.getLsbD i <;> simp

@[simp] theorem majority_allOnes (b c : Word) : majority (BitVec.allOnes 32) b c = b ||| c := by
  refine BitVec.eq_of_getLsbD_eq fun i hi => ?_
  rw [getLsbD_majority, BitVec.getLsbD_allOnes, decide_eq_true hi, BitVec.getLsbD_or]
  cases b.getLsbD i <;> simp

@[simp] theorem majority_zero (b c : Word) : majority 0#32 b c = b &&& c := by
  simp [majority]

theorem majority_IV : majority IV[0] IV[1] IV[2] = 0x3a6fe667#32 := by decide

/-- Settles O6: a bit of Maj is the majority of three bits, and the corner cases are that majority with an operand known. -/
theorem majorityOfBits : Obligations.MajorityOfBits := by
  refine fun a b c => ⟨rfl, fun i _ => ?_, majority_self a b, majority_allOnes b c, majority_zero b c, majority_IV⟩
  rw [getLsbD_majority]
  exact two_le_toNat_add_iff ..

/-- The schedule word of a round from 0 to 63: stored below 16, made of four stored words from there on (rule R103). -/
theorem expandedWord_of_operands {w : Vector (Option Word) 64} {t : Nat} {wt : Word} (ht : t < 64)
    (hstored : t < 16 → w[t]? = some (some wt))
    (hmade : 16 ≤ t → ∃ w2 w7 w15 w16 : Word, w[t - 2]? = some (some w2) ∧ w[t - 7]? = some (some w7) ∧
      w[t - 15]? = some (some w15) ∧ w[t - 16]? = some (some w16) ∧
      wt = smallSigma1 w2 + w7 + smallSigma0 w15 + w16) :
    expandedWord w t = some wt := by
  by_cases h : t < 16
  · obtain ⟨_, hwt⟩ := Vector.getElem?_eq_some_iff.1 (hstored h)
    rw [expandedWord_of_lt w h, hwt]
  · obtain ⟨w2, w7, w15, w16, h2, h7, h15, h16, rfl⟩ := hmade (Nat.le_of_not_lt h)
    obtain ⟨_, h2⟩ := Vector.getElem?_eq_some_iff.1 h2
    obtain ⟨_, h7⟩ := Vector.getElem?_eq_some_iff.1 h7
    obtain ⟨_, h15⟩ := Vector.getElem?_eq_some_iff.1 h15
    obtain ⟨_, h16⟩ := Vector.getElem?_eq_some_iff.1 h16
    exact expandedWord_of_ge (Nat.le_of_not_lt h) ht h2 h7 h15 h16

/-- The round counter does not wrap in a round: it holds 7 bits and goes to 64 (rule R30). -/
theorem toNat_roundCounter_succ {t : BitVec 7} (ht : t.toNat < 64) : (t + 1#7).toNat = t.toNat + 1 := by
  bv_omega

/-- Settles O35: the operands make the round's schedule word, and each clause is a field of the record that
`engineStep_round` gives. -/
theorem roundStep : Obligations.RoundStep := by
  refine ⟨fun s a b c d e f g h wt hp ht hwork hstored hmade => ?_, by decide, by decide, bigSigma1_IV, choose_IV,
    bigSigma0_IV, majority_IV, by decide, by decide, by decide, by decide⟩
  have hlt : s.t.toNat < 64 := Nat.lt_succ_of_le ht
  have hstep := engineStep_round (v := ⟨a, b, c, d, e, f, g, h⟩) hp hlt hwork (expandedWord_of_operands hlt hstored hmade)
  refine ⟨K[s.t.toNat], _, Vector.getElem?_eq_getElem hlt, hstep, rfl, fun i => ?_, toNat_roundCounter_succ hlt, ?_,
    busy_iff.2 hp, rfl⟩
  · exact getElem_storeExpanded s.w ⟨s.t.toNat, hlt⟩ wt i.val i.isLt
  · rw [roundField_eq, if_pos hp]

/-- An accepted command writes H exactly where it has INIT set (rule R158). -/
theorem command_hash {d : Word} (h : ctrlReserved d = 0#29) (s : State) :
    (command d s).hash = if d.getLsbD 0 then IV else s.hash := by
  rw [command_eq h]; rfl

/-- H after a step, over all nine forms of a step: the fold adds the working variables in, INIT and reset set IV, and no
other step writes it (rules R23 and R131). -/
theorem step_hash {s t : State} (h : step s = .next t) :
    (foldTurn s = true ∧ ∃ v : Vars, s.work = v.store ∧ t.hash = foldHash s.hash v) ∨
    (foldTurn s = false ∧ t.hash = if commandTurn 0 s || resetTurn s then IV else s.hash) := by
  obtain ⟨-, hidle | hround | hfold | hreset | hread | hbusy | hmsg | hrefused | hcommand⟩ := step_forms h
  · obtain ⟨-, hr, hi, hp, rfl⟩ := hidle
    exact .inr ⟨foldTurn_idle hp, by simp [commandTurn_none hi, hr]⟩
  · obtain ⟨-, hr, hi, -, ht, v, wt, -, -, rfl⟩ := hround
    exact .inr ⟨foldTurn_of_lt ht, by simp [commandTurn_none hi, hr]⟩
  · obtain ⟨he, -, -, hp, ht, v, hv, rfl⟩ := hfold
    exact .inl ⟨foldTurn_iff.2 ⟨he, hp, ht⟩, v, hv, rfl⟩
  · obtain ⟨he, hr, -, rfl⟩ := hreset
    exact .inr ⟨foldTurn_of_not_engineTurn he, by simp [hr]⟩
  · obtain ⟨he, hr, i, hi, hw, rfl⟩ := hread
    exact .inr ⟨foldTurn_of_not_engineTurn he, by simp [commandTurn_read hi hw, hr]⟩
  · obtain ⟨he, hr, i, -, -, hp, rfl⟩ := hbusy
    exact .inr ⟨foldTurn_of_not_engineTurn he, by simp [commandTurn_run hp, hr]⟩
  · obtain ⟨he, hr, -, i, d, hi, rfl⟩ := hmsg
    have hno : commandTurn 0 s = false := commandTurn_other hi (by simp) 0
    exact .inr ⟨foldTurn_of_not_engineTurn he, by simp [hno, hr]⟩
  · obtain ⟨he, hr, -, i, e, hi, -, -, href, rfl⟩ := hrefused
    exact .inr ⟨foldTurn_of_not_engineTurn he, by simp [commandTurn_refused hi href, hr]⟩
  · obtain ⟨he, hr, hp, d, hi, hd, rfl⟩ := hcommand
    exact .inr ⟨foldTurn_of_not_engineTurn he, by simp [commandTurn_accepted hp hi hd, command_hash hd, hr]⟩

/-- A step that changes H is one of its three writers. -/
theorem writer_of_hash_ne {s t : State} (h : step s = .next t) (hne : t.hash ≠ s.hash) :
    foldTurn s = true ∨ commandTurn 0 s = true ∨ resetTurn s = true := by
  rcases step_hash h with ⟨hf, -⟩ | ⟨-, ht⟩
  · exact .inl hf
  · refine .inr (Bool.or_eq_true_iff.1 ?_)
    by_contra hno
    exact hne (ht.trans (if_neg hno))

/-- Settles O36: each clause of the fold is a field of the record that `engineStep_fold` gives; the writers of H are read off
`step_hash`. -/
theorem foldStep : Obligations.FoldStep := by
  refine ⟨fun s a b c d e f g h hp ht hwork => ?_, fun _ _ => writer_of_hash_ne, by decide, by decide⟩
  have hstep := engineStep_fold (v := ⟨a, b, c, d, e, f, g, h⟩) hp ht hwork
  exact ⟨_, hstep, rfl, rfl, rfl, rfl, rfl, rfl, rfl, rfl, rfl, fun i => Vector.getElem_replicate i.isLt, rfl, rfl, rfl,
    rfl, rfl, rfl, rfl, rfl, rfl, rfl⟩

end Sys2Proof.Machine
end

section
/-! PROOF. The writes of the port map (43_host_port.md): a write refused and only recorded, as one record; and a CTRL write,
whose three command bits each decide their own fields (rules R156 to R159). -/

namespace Sys2Proof.Machine

/-- Rule R222, for every row: while the engine runs a write only records BUSY_WRITE. -/
theorem exec_write_run {i : Instr} (hw : i.isWrite = true) {s : State} (hp : s.phase = .run) :
    exec i s = .next (recordError .busyWrite (respondNothing s)) := by
  rw [exec_of_write hw, gate_run _ (by simpa using hp)]

/-- Rule R151, for every row: while the engine is idle a write follows the row's own rule. -/
theorem exec_write_idle {i : Instr} (hw : i.isWrite = true) {s : State} (hp : s.phase = .idle) :
    exec i s = .next (writeRule i (respondNothing s)) := by
  rw [exec_of_write hw, gate_idle _ (by simpa using hp)]

/-- Rule R156: a CTRL write issued while idle is the command its data gives. -/
theorem exec_ctrlWr_idle (d : Word) {s : State} (hp : s.phase = .idle) :
    exec (.ctrlWr d) s = .next (command d (respondNothing s)) :=
  exec_write_idle rfl hp

/-- The state after a refused write, as one record (rule R221). -/
theorem recordError_respondNothing (e : ErrorName) (s : State) :
    recordError e (respondNothing s) =
      { s with rdata := none, err := true, errcode := if s.err then s.errcode else e.code } :=
  recordError_eq e (respondNothing s)

/-- An accepted command forgets the recorded error exactly where it has CLRERR set (rule R157). -/
theorem command_error {d : Word} (h : ctrlReserved d = 0#29) (s : State) :
    (command d s).err = (if d.getLsbD 2 then false else s.err) ∧
    (command d s).errcode = if d.getLsbD 2 then 0#4 else s.errcode := by
  rw [command_eq h]; exact ⟨rfl, rfl⟩

/-- NEXT starts the engine, seeded from the H that the command leaves: IV where INIT is set too (rules R156 and R159). -/
theorem command_next {d : Word} (h : ctrlReserved d = 0#29) (hn : d.getLsbD 1 = true) (s : State) :
    (command d s).phase = .run ∧ (command d s).t = 0#7 ∧ (command d s).w = loadSchedule s.msg ∧
    (command d s).work = (seedVars (command d s).hash).store := by
  have hn' : ctrlNext d = true := hn
  rw [command_eq h]
  simp [hn']

/-- A command without NEXT leaves the engine as it was. -/
theorem command_without_next {d : Word} (h : ctrlReserved d = 0#29) (hn : d.getLsbD 1 = false) (s : State) :
    (command d s).phase = s.phase ∧ (command d s).t = s.t ∧ (command d s).w = s.w ∧ (command d s).work = s.work := by
  have hn' : ctrlNext d = false := hn
  rw [command_eq h]
  simp [hn']

/-- The STATUS word of a block just started, with no digest and no error to show: BUSY alone (rule R25). -/
theorem statusWord_started {s : State} (hp : s.phase = .run) (ht : s.t = 0#7) (hv : s.valid = false) (he : s.err = false)
    (hec : s.errcode = 0#4) : statusWord s = 1#32 := by
  simp only [statusWord, busy, roundField, hp, ht, hv, he, hec]
  decide

/-- Rule R156's worked example: the word 3 has INIT and NEXT set and CLRERR clear, so the block is seeded from IV. -/
theorem command_init_next {s : State} (he : s.err = false) (hec : s.errcode = 0#4) :
    statusWord (command 3#32 s) = 1#32 ∧ (command 3#32 s).work = (seedVars IV).store := by
  have h : ctrlReserved 3#32 = 0#29 := by decide
  obtain ⟨hp, ht, -, hwork⟩ := command_next h (by decide) s
  obtain ⟨herr, hcode⟩ := command_error h s
  have hhash : (command 3#32 s).hash = IV := command_hash h s
  exact ⟨statusWord_started hp ht (command_valid h s) (herr.trans he) (hcode.trans hec), by rw [hwork, hhash]⟩

/-- Settles O22: a refused write is a record, an accepted command is read off bit by bit, and the worked example is
`command_init_next`. -/
theorem commandWrites : Obligations.CommandWrites := by
  refine ⟨fun s d hp => ?_, fun s d hp hd => ?_, fun s d hp hd => ?_, fun s hp he hec => ?_⟩
  · rw [exec_write_run rfl hp, recordError_respondNothing]; rfl
  · rw [exec_ctrlWr_idle d hp, command_reserved hd, recordError_respondNothing]; rfl
  · obtain ⟨hmsg, hrdata, hagenda⟩ := command_frame d (respondNothing s)
    obtain ⟨herr, hcode⟩ := command_error hd (respondNothing s)
    have hhash := command_hash hd (respondNothing s)
    have hvalid := command_valid hd (respondNothing s)
    refine ⟨_, exec_ctrlWr_idle d hp, hmsg, hrdata, hagenda, fun hb => ?clrerr, fun hb => ?keepError, fun hb => ?init,
      fun hb => ?keepHash, fun hb => ?next, fun hb => ?stayIdle⟩
    case clrerr | keepError => rw [hb] at herr hcode; exact ⟨herr, hcode⟩
    case init | keepHash => rw [hb] at hhash hvalid; exact ⟨hhash, hvalid⟩
    case next =>
      obtain ⟨hrun, ht, hw, hwork⟩ := command_next hd hb (respondNothing s)
      refine ⟨hrun, busy_iff.2 hrun, ht, fun i hi => ?_, fun i hlow hi => ?_, hwork⟩
      · simp [hw, hi]
      · simp [hw, Nat.not_lt.2 hlow]
    case stayIdle =>
      obtain ⟨hphase, hengine⟩ := command_without_next hd hb (respondNothing s)
      exact ⟨hphase.trans hp, hengine⟩
  · obtain ⟨hstatus, hwork⟩ := command_init_next (s := respondNothing s) he hec
    exact ⟨_, exec_ctrlWr_idle _ hp, hstatus, hwork⟩

end Sys2Proof.Machine
end

section
/-! PROOF. The layout of a framed message (rules R190 and R193). Everything rests on one fact of arithmetic: input,
terminator, zero bytes and length field together fill the blocks exactly, which puts the length field at
`64 * blockCount L - 8`; the byte at each position is then read off the part it falls into. -/

namespace Sys2Proof.Machine

/-- The blocks are large enough: the subtraction in `zeroCount` is exact. -/
theorem length_add_nine_le_blocks (L : Nat) : L + 9 ≤ 64 * blockCount L := by
  simp only [blockCount]; omega

/-- Input, terminator and zero bytes reach to the last eight bytes of the blocks. -/
theorem length_add_zeroCount (L : Nat) : L + (zeroCount L + 1) = 64 * blockCount L - 8 := by
  have hfit := length_add_nine_le_blocks L
  simp only [zeroCount]; omega

@[simp] theorem length_lengthField (L : Nat) : (lengthField L).length = 8 := by simp [lengthField]

/-- What stands before the length field ends eight bytes before the end of the last block. -/
theorem length_before_lengthField (input : List Byte) :
    (input ++ [0x80#8] ++ List.replicate (zeroCount input.length) 0#8).length = 64 * blockCount input.length - 8 := by
  simpa using length_add_zeroCount input.length

/-- A framed message is a whole number of blocks long. -/
@[simp] theorem length_frame (input : List Byte) : (frame input).length = 64 * blockCount input.length := by
  have hfit := length_add_nine_le_blocks input.length
  rw [frame, List.length_append, length_before_lengthField, length_lengthField]
  omega

/-- The layout seen from the front: the input, the terminator, and what follows it. -/
theorem frame_eq_append_cons (input : List Byte) :
    frame input = input ++ 0x80#8 :: (List.replicate (zeroCount input.length) 0#8 ++ lengthField input.length) := by
  simp [frame]

theorem getElem?_frame_input {input : List Byte} {k : Nat} (hk : k < input.length) : (frame input)[k]? = input[k]? := by
  rw [frame_eq_append_cons, List.getElem?_append_left hk]

theorem getElem?_frame_terminator (input : List Byte) : (frame input)[input.length]? = some 0x80#8 := by
  rw [frame_eq_append_cons, List.getElem?_append_right (Nat.le_refl _), Nat.sub_self, List.getElem?_cons_zero]

theorem getElem?_frame_zero {input : List Byte} {k : Nat} (hlow : input.length < k)
    (hhigh : k < 64 * blockCount input.length - 8) : (frame input)[k]? = some 0#8 := by
  obtain ⟨j, rfl⟩ := Nat.exists_eq_add_of_lt hlow
  have hj : j < zeroCount input.length := by
    have hzeros := length_add_zeroCount input.length
    omega
  rw [frame_eq_append_cons, Nat.add_assoc, List.getElem?_append_right (Nat.le_add_right _ _), Nat.add_sub_cancel_left,
    List.getElem?_cons_succ, List.getElem?_append_left (by simpa using hj), List.getElem?_replicate_of_lt hj]

/-- The last eight bytes of a framed message are its length field. -/
theorem drop_frame (input : List Byte) :
    (frame input).drop (64 * blockCount input.length - 8) = lengthField input.length :=
  List.drop_left' (length_before_lengthField input)

/-- Settles O54: the length and, part by part, the bytes of the frame. -/
theorem frameLayout : Obligations.FrameLayout :=
  fun input => ⟨length_frame input, fun _ => getElem?_frame_input, getElem?_frame_terminator input,
    fun _ => getElem?_frame_zero, drop_frame input⟩

end Sys2Proof.Machine
end

section
/-! PROOF. The error record (60_exceptions.md). A refused write, for whatever reason, is `record_error` and nothing else
(rules R221 to R224); a step either is such a write, or leaves ERR and ERRCODE as they are but for CLRERR and reset, from
which the rule over all steps follows (rule R220). -/

namespace Sys2Proof.Machine

/-- Rule R220 where no error is recorded. -/
theorem recordError_of_err_false (e : ErrorName) {s : State} (he : s.err = false) :
    recordError e s = { s with err := true, errcode := e.code } := by
  simp [recordError, he]

/-- Rule R220 where an error is recorded: the first one is kept. -/
theorem recordError_of_err (e : ErrorName) {s : State} (he : s.err = true) : recordError e s = s := by
  simp [recordError, he]

/-- A write whose row only records, issued while idle, as one record (rules R223 and R224). -/
theorem exec_recording_idle {i : Instr} {e : ErrorName} (hw : i.isWrite = true) (hrule : writeRule i = recordError e)
    {s : State} (hp : s.phase = .idle) :
    exec i s = .next { s with rdata := none, err := true, errcode := if s.err then s.errcode else e.code } := by
  rw [exec_write_idle hw hp, hrule, recordError_respondNothing]

/-- Settles O20: both rows record RO_WRITE. -/
theorem readOnlyWritesRecord : Obligations.ReadOnlyWritesRecord :=
  fun _ hp => ⟨fun _ _ => exec_recording_idle (e := .roWrite) rfl rfl hp,
    fun _ => exec_recording_idle (e := .roWrite) rfl rfl hp⟩

/-- Settles O21: both rows record RSV_WRITE. -/
theorem reservedWritesRecord : Obligations.ReservedWritesRecord :=
  fun _ hp => ⟨fun _ _ => exec_recording_idle (e := .rsvWrite) rfl rfl hp,
    fun _ _ => exec_recording_idle (e := .rsvWrite) rfl rfl hp⟩

/-- Settles O23: the gate refuses every row alike. -/
theorem busyWritesRecord : Obligations.BusyWritesRecord := by
  intro s i hp hw
  rw [exec_write_run hw hp, recordError_respondNothing]
  rfl

/-- The row's own rule refuses the write (rules R155, R156, R162 and R164): it is no MSG write, and no CTRL write whose
reserved bits are 0. -/
def RefusedByRow (i : Instr) : Prop :=
  (∀ k d, i ≠ .msgWr k d) ∧ ∀ d, i = .ctrlWr d → ctrlReserved d ≠ 0#29

/-- The write is refused: by the gate while the engine runs, or by its row's own rule (rules R151 and R221). -/
def WriteRefused (s : State) (i : Instr) : Prop := s.phase = .run ∨ RefusedByRow i

/-- A row that refuses a write records one error, the same from every state. -/
theorem writeRule_refused {i : Instr} (hw : i.isWrite = true) (hi : RefusedByRow i) :
    ∃ e, ∀ s, writeRule i s = recordError e s := by
  obtain ⟨hmsg, hctrl⟩ := hi
  cases i with
  | msgWr k d => exact absurd rfl (hmsg k d)
  | ctrlWr d => exact ⟨.ctrlRsv, command_reserved (hctrl d rfl)⟩
  | hashWr | statusWr => exact ⟨.roWrite, fun _ => rfl⟩
  | rsvWrLo | rsvWrHi => exact ⟨.rsvWrite, fun _ => rfl⟩
  | _ => cases hw

/-- Rule R221: a refused write completes and is `record_error`, with nothing returned. -/
theorem exec_refused {i : Instr} {s : State} (hw : i.isWrite = true) (hi : WriteRefused s i) :
    ∃ e, exec i s = .next (recordError e (respondNothing s)) := by
  cases hp : s.phase with
  | run => exact ⟨.busyWrite, exec_write_run hw hp⟩
  | idle =>
    obtain ⟨e, he⟩ := writeRule_refused hw (hi.resolve_left (by simp [hp]))
    exact ⟨e, by rw [exec_write_idle hw hp, he]⟩

/-- Settles O25: `exec_refused`, and the frame of `record_error`. -/
theorem refusedWritesOnlyRecord : Obligations.RefusedWritesOnlyRecord := by
  intro s i hw hi
  obtain ⟨e, hexec⟩ := exec_refused hw hi
  exact ⟨_, hexec, recordError_err e _, fun he => by simp [he], by simp⟩

/-- The error record over all nine forms of a step: the step is a refused host write that records, or ERR and ERRCODE
are cleared by CLRERR and reset and left by every other step. -/
theorem step_error {s t : State} (h : step s = .next t) :
    (engineTurn s = false ∧ resetTurn s = false ∧ commandTurn 2 s = false ∧
      (∃ i, pendingInstr s = some i ∧ i.isWrite = true ∧ WriteRefused s i) ∧
      ∃ e, t = recordError e (respondNothing (afterTurn s))) ∨
    (t.err = (if commandTurn 2 s || resetTurn s then false else s.err) ∧
      t.errcode = if commandTurn 2 s || resetTurn s then 0#4 else s.errcode) := by
  obtain ⟨-, hidle | hround | hfold | hreset | hread | hbusy | hmsg | hrefused | hcommand⟩ := step_forms h
  · obtain ⟨-, hr, hi, -, rfl⟩ := hidle
    exact .inr (by simp [commandTurn_none hi, hr])
  · obtain ⟨-, hr, hi, -, -, v, wt, -, -, rfl⟩ := hround
    exact .inr (by simp [commandTurn_none hi, hr])
  · obtain ⟨-, hr, hi, -, -, v, -, rfl⟩ := hfold
    exact .inr (by simp [commandTurn_none hi, hr])
  · obtain ⟨-, hr, -, rfl⟩ := hreset
    exact .inr (by simp [hr])
  · obtain ⟨-, hr, i, hi, hw, rfl⟩ := hread
    exact .inr (by simp [commandTurn_read hi hw, hr])
  · obtain ⟨he, hr, i, hi, hw, hp, rfl⟩ := hbusy
    exact .inl ⟨he, hr, commandTurn_run hp 2, ⟨i, hi, hw, .inl hp⟩, _, rfl⟩
  · obtain ⟨-, hr, -, i, d, hi, rfl⟩ := hmsg
    have hno : commandTurn 2 s = false := commandTurn_other hi (by simp) 2
    exact .inr (by simp [hno, hr])
  · obtain ⟨he, hr, -, i, e, hi, hw, hmsg, hctrl, rfl⟩ := hrefused
    exact .inl ⟨he, hr, commandTurn_refused hi hctrl 2, ⟨i, hi, hw, .inr ⟨hmsg, hctrl⟩⟩, e, rfl⟩
  · obtain ⟨-, hr, hp, d, hi, hd, rfl⟩ := hcommand
    obtain ⟨herr, hcode⟩ := command_error hd (respondNothing (afterTurn s))
    exact .inr (by simp [commandTurn_accepted hp hi hd, herr, hcode, hr])

/-- A recorded error stays with its code in every step but CLRERR and reset (rule R220). -/
theorem step_keeps_error {s t : State} (h : step s = .next t) (he : s.err = true) (hcmd : commandTurn 2 s = false)
    (hr : resetTurn s = false) : t.err = true ∧ t.errcode = s.errcode := by
  rcases step_error h with ⟨-, -, -, -, e, rfl⟩ | ⟨herr, hcode⟩
  · simp [he]
  · simp [herr, hcode, hcmd, hr, he]

/-- Settles O27: the two cases of `record_error`, and the one disjunct of `step_error` that can set ERR. -/
theorem firstErrorIsKept : Obligations.FirstErrorIsKept := by
  refine ⟨fun e _ => recordError_of_err_false e, fun e _ => recordError_of_err e, fun s t h he ht => ?_⟩
  rcases step_error h with ⟨-, -, -, hwrite, -⟩ | ⟨herr, -⟩
  · exact hwrite
  · simp [herr, he] at ht

/-- An engine turn is neither reset nor a host transaction. -/
theorem no_host_of_engineTurn {s : State} (h : engineTurn s = true) : resetTurn s = false ∧ pendingInstr s = none := by
  unfold engineTurn at h
  unfold resetTurn pendingInstr
  cases ha : s.agenda with
  | nil => exact ⟨rfl, rfl⟩
  | cons x rest =>
    have hx : x = .engine := by simpa [ha] using h
    subst hx
    exact ⟨rfl, rfl⟩

/-- Engine turns record nothing (rule R228). -/
theorem step_error_of_engineTurn {s t : State} (hturn : engineTurn s = true) (h : step s = .next t) :
    t.err = s.err ∧ t.errcode = s.errcode := by
  obtain ⟨hr, hi⟩ := no_host_of_engineTurn hturn
  rcases step_error h with ⟨hno, -⟩ | ⟨herr, hcode⟩
  · simp [hturn] at hno
  · simp [herr, hcode, commandTurn_none hi, hr]

end Sys2Proof.Machine
end

section
/-! PROOF. A write seen from its location: the rows and the register map agree on what a write does (rules R72 and R74),
so that the code a write records can be read off its location, and the priority of rule R228 is the map's. -/

namespace Sys2Proof.Machine

/-- What a write decodes to is a write (rule R71). -/
theorem isWrite_rowOf_operands {T : TxnWord} (hw : T.we = true) :
    ((rowOf T.we T.addr).operands T).isWrite = true := by
  simp only [rowOf, hw, if_true]
  split_ifs <;> rfl

/-- The register map's write, location by location (rule R72). -/
theorem locationWrite_msg {a : PortAddr} (d : Word) (h : a.toNat < 16) : locationWrite a d = setMsg ⟨a.toNat, h⟩ d := by
  funext s; simp [locationWrite, h]

theorem locationWrite_hash {a : PortAddr} (d : Word) (h : 16 ≤ a.toNat) (h' : a.toNat < 24) :
    locationWrite a d = recordError .roWrite := by
  funext s; simp [locationWrite, Nat.not_lt.2 h, h']

theorem locationWrite_ctrl (d : Word) : locationWrite 0x18#5 d = command d := rfl

theorem locationWrite_status (d : Word) : locationWrite 0x19#5 d = recordError .roWrite := rfl

theorem locationWrite_reserved {a : PortAddr} (d : Word) (h : 26 ≤ a.toNat) :
    locationWrite a d = recordError .rsvWrite := by
  funext s
  simp [locationWrite, show ¬ a.toNat < 16 by omega, show ¬ a.toNat < 24 by omega, show a ≠ 24#5 by bv_omega,
    show a ≠ 25#5 by bv_omega]

/-- The rows of the writes and the register map agree (rules R72 and R74): the rule of the row that a write decodes to is
what the map gives for its location. -/
theorem writeRule_rowOf_operands (a : PortAddr) (d : Word) :
    writeRule ((rowOf true a).operands (mkTxn true a d)) = locationWrite a d := by
  rcases location_cases a with h | ⟨h, h'⟩ | rfl | rfl | ⟨h, h'⟩ | h
  · rw [rowOf_msg true h, locationWrite_msg d h]
    simp [RowName.operands, writeRule, msgIndex_mkTxn true d h]
  · rw [rowOf_hash true h h', locationWrite_hash d h h']; rfl
  · rw [rowOf_ctrl, locationWrite_ctrl]
    simp [RowName.operands, writeRule]
  · rw [rowOf_status, locationWrite_status]; rfl
  · rw [rowOf_reservedLo true h h', locationWrite_reserved d h]; rfl
  · rw [rowOf_reservedHi true h, locationWrite_reserved d (by omega)]; rfl

/-- A write transaction on the port, as one step: the gate, then what the register map gives for the location (rule R151). -/
theorem step_hostWrite {s : State} {T : TxnWord} {rest : List Turn} (hc : consistent s = true)
    (ha : s.agenda = .host T :: rest) (hw : T.we = true) :
    step s = .next (gate (locationWrite T.addr T.wdata) (respondNothing { s with agenda := rest })) := by
  have hrule := writeRule_rowOf_operands T.addr T.wdata
  rw [← hw, mkTxn_fields] at hrule
  rw [step_turn hc ha, takeTurn, hostTurn_eq, exec_of_write (isWrite_rowOf_operands hw), hrule]

/-- The priority of rule R228: what a write leaves in ERRCODE where nothing was recorded, and in ERR with it. -/
theorem gate_locationWrite_errcode (a : PortAddr) (d : Word) {s : State} (he : s.err = false) (hcode : s.errcode = 0#4) :
    (gate (locationWrite a d) s).errcode = writeErrorCode s a d ∧
    ((gate (locationWrite a d) s).err = true ↔ writeErrorCode s a d ≠ 0#4) := by
  cases hp : s.phase with
  | run => simp [gate_run _ hp, writeErrorCode, hp, he, ErrorName.code]
  | idle =>
    rw [gate_idle _ hp]
    simp only [writeErrorCode, hp]
    rcases location_cases a with h | ⟨h, h'⟩ | rfl | rfl | hres
    · simp [locationWrite_msg d h, h, he, hcode]
    · simp [locationWrite_hash d h h', Nat.not_lt.2 h, h', he, ErrorName.code]
    · rw [locationWrite_ctrl]
      by_cases hd : ctrlReserved d = 0#29
      · obtain ⟨herr, herrcode⟩ := command_error hd s
        simp [herr, herrcode, he, hcode, hd]
      · simp [command_reserved hd, hd, he, ErrorName.code]
    · simp [locationWrite_status, he, ErrorName.code]
    · have h : 26 ≤ a.toNat := by omega
      simp [locationWrite_reserved d h, h, show ¬ a.toNat < 16 by omega, show ¬ a.toNat < 24 by omega,
        show a ≠ 25#5 by bv_omega, he, ErrorName.code]

/-- The host's turn is not reset's. -/
theorem resetTurn_of_host {s : State} {T : TxnWord} {rest : List Turn} (ha : s.agenda = .host T :: rest) :
    resetTurn s = false := by
  simp [resetTurn, ha]

/-- Where no error is recorded ERRCODE is 0 (rule R36). -/
theorem consistent_errcode_of_err_false {s : State} (hc : consistent s = true) (he : s.err = false) :
    s.errcode = 0#4 := by
  have herr : errorFieldsOk s = true := (Bool.and_eq_true_iff.1 hc).1
  simpa [he] using (errorFieldsOk_iff.1 herr).1

/-- Settles O26: the code of a write is the register map's, a recorded error is kept by every step but CLRERR and reset,
and an engine turn is no write. -/
theorem writeErrorPriority : Obligations.WriteErrorPriority := by
  refine ⟨fun s T rest hc ha hw => ?_, fun _ _ => step_error_of_engineTurn⟩
  have hstep := step_hostWrite hc ha hw
  refine ⟨_, hstep, fun he => ?_, fun he hcmd => step_keeps_error hstep he hcmd (resetTurn_of_host ha)⟩
  exact gate_locationWrite_errcode T.addr T.wdata (s := respondNothing { s with agenda := rest }) he
    (consistent_errcode_of_err_false hc he)

end Sys2Proof.Machine
end

section
/-! PROOF. Reset as one step (rule R250), and the reads after it: STATUS and HASH seen through the register map. -/

namespace Sys2Proof.Machine

/-- A step on reset's turn. -/
theorem step_reset {s : State} {rest : List Turn} (hc : consistent s = true) (ha : s.agenda = .reset :: rest) :
    step s = .next (resetBlock { s with agenda := rest }) := by
  rw [step_turn hc ha, takeTurn]

/-- STATUS of an idle block that has neither a digest nor a recorded error (rule R25). -/
theorem statusWord_cleared {s : State} (hp : s.phase = .idle) (hv : s.valid = false) (he : s.err = false)
    (hec : s.errcode = 0#4) : statusWord s = 0#32 := by
  simp only [statusWord, busy, roundField, hp, hv, he, hec]
  decide

/-- The register map at the location of STATUS (rule R72). -/
theorem locationValue_status (s : State) : locationValue s 0x19#5 = statusWord s := rfl

/-- The register map at the eight locations of HASH (rule R72). -/
theorem locationValue_hash (s : State) (i : Fin 8) :
    locationValue s (BitVec.ofNat 5 (0x10 + i.val)) = s.hash[i] := by
  have haddr : (BitVec.ofNat 5 (0x10 + i.val)).toNat = 16 + i.val := by
    rw [BitVec.toNat_ofNat, Nat.mod_eq_of_lt (by omega)]
  have hhash : 16 + i.val < 24 := by omega
  simp [locationValue, haddr, hhash]

/-- Settles O47: the step is `resetBlock`, whose fields are the reset values; STATUS is cleared with them, and HASH reads
what the hash state holds. -/
theorem resetEvent : Obligations.ResetEvent := by
  intro s rest hc ha
  refine ⟨_, step_reset hc ha, fun i => ?_, fun i => ?_, rfl, fun i => ?_, rfl, rfl, rfl, rfl, rfl, rfl, ?_, fun i => ?_⟩
  · simp
  · rw [resetBlock_hash]
  · simp
  · rw [locationValue_status, statusWord_cleared rfl rfl rfl rfl]
  · rw [locationValue_hash, resetBlock_hash]

end Sys2Proof.Machine
end

section
/-! PROOF. Encoder and decoder as each other's inverses (rules R71 to R74). Both go through the three fields of a transaction
word: what a location decodes to, said once location class by location class, gives the register map; its fields give back
the word. -/

namespace Sys2Proof

/-- The row of a well-formed instruction, from the per-instruction laws. -/
theorem rowOf_of_wellFormed {i : Instr} (h : i.wellFormed = true) :
    rowOf i.isWrite i.portAddr = Laws.EncodeRow.rowName i := by
  cases i with
  | msgRd k => exact Laws.EncodeRow.msgRd k h
  | msgWr k d => exact Laws.EncodeRow.msgWr k d h
  | hashRd k => exact Laws.EncodeRow.hashRd k h
  | hashWr k d => exact Laws.EncodeRow.hashWr k d h
  | ctrlRd => exact Laws.EncodeRow.ctrlRd h
  | ctrlWr d => exact Laws.EncodeRow.ctrlWr d h
  | statusRd => exact Laws.EncodeRow.statusRd h
  | statusWr d => exact Laws.EncodeRow.statusWr d h
  | rsvRdLo a => exact Laws.EncodeRow.rsvRdLo a h
  | rsvWrLo a d => exact Laws.EncodeRow.rsvWrLo a d h
  | rsvRdHi a => exact Laws.EncodeRow.rsvRdHi a h
  | rsvWrHi a d => exact Laws.EncodeRow.rsvWrHi a d h

/-- The location of a MSG register gives its index back (rule R73). -/
theorem msgIndex_mkTxn_ofNat (we : Bool) (k : Fin 16) (d : Word) : (mkTxn we (BitVec.ofNat 5 k.val) d).msgIndex = k := by
  have haddr : (BitVec.ofNat 5 k.val).toNat = k.val := by rw [BitVec.toNat_ofNat]; omega
  rw [msgIndex_mkTxn we d (by omega)]
  exact Fin.ext haddr

/-- The location of a HASH register gives its index back (rule R73). -/
theorem hashIndex_mkTxn_ofNat (we : Bool) (k : Fin 8) (d : Word) :
    (mkTxn we (BitVec.ofNat 5 (0x10 + k.val)) d).hashIndex = k := by
  have haddr : (BitVec.ofNat 5 (0x10 + k.val)).toNat = 0x10 + k.val := by rw [BitVec.toNat_ofNat]; omega
  rw [hashIndex_mkTxn we d (by omega) (by omega)]
  exact Fin.ext (by simp only [haddr]; omega)

/-- The operands of an instruction's own row, read off its word, are the instruction's. -/
theorem operands_rowName_encode (i : Instr) : (Laws.EncodeRow.rowName i).operands (encode i) = i := by
  cases i with
  | msgRd k => exact congrArg Instr.msgRd (msgIndex_mkTxn_ofNat false k _)
  | msgWr k d => exact congrArg₂ Instr.msgWr (msgIndex_mkTxn_ofNat true k d) (wdata_mkTxn ..)
  | hashRd k => exact congrArg Instr.hashRd (hashIndex_mkTxn_ofNat false k _)
  | hashWr k d => exact congrArg₂ Instr.hashWr (hashIndex_mkTxn_ofNat true k d) (wdata_mkTxn ..)
  | ctrlRd | statusRd => rfl
  | ctrlWr d => exact congrArg Instr.ctrlWr (wdata_mkTxn ..)
  | statusWr d => exact congrArg Instr.statusWr (wdata_mkTxn ..)
  | rsvRdLo a => exact congrArg Instr.rsvRdLo (addr_mkTxn ..)
  | rsvWrLo a d => exact congrArg₂ Instr.rsvWrLo (addr_mkTxn ..) (wdata_mkTxn ..)
  | rsvRdHi a => exact congrArg Instr.rsvRdHi (addr_mkTxn ..)
  | rsvWrHi a d => exact congrArg₂ Instr.rsvWrHi (addr_mkTxn ..) (wdata_mkTxn ..)

/-- Settles O10: WE and the address of a well-formed instruction select its own row, and that row's operands are its own. -/
theorem decodeOfEncode : Obligations.DecodeOfEncode := by
  intro i hi
  calc decode (encode i)
      = .ok ((rowOf i.isWrite i.portAddr).operands (encode i)) := decode_mkTxn ..
    _ = .ok ((Laws.EncodeRow.rowName i).operands (encode i)) := by rw [rowOf_of_wellFormed hi]
    _ = .ok i := by rw [operands_rowName_encode]

/-- What a transaction word with the given fields decodes to, by the register map (rules R72 and R73). -/
def instrAt (we : Bool) (a : PortAddr) (d : Word) : Instr :=
  if h : a.toNat < 16 then if we then .msgWr ⟨a.toNat, h⟩ d else .msgRd ⟨a.toNat, h⟩
  else if h : a.toNat < 24 then if we then .hashWr ⟨a.toNat - 16, by omega⟩ d else .hashRd ⟨a.toNat - 16, by omega⟩
  else if a = 0x18#5 then if we then .ctrlWr d else .ctrlRd
  else if a = 0x19#5 then if we then .statusWr d else .statusRd
  else if a.toNat < 0x1C then if we then .rsvWrLo a d else .rsvRdLo a
  else if we then .rsvWrHi a d else .rsvRdHi a

theorem instrAt_msg (we : Bool) {a : PortAddr} (d : Word) (h : a.toNat < 16) :
    instrAt we a d = if we then .msgWr ⟨a.toNat, h⟩ d else .msgRd ⟨a.toNat, h⟩ := by
  simp [instrAt, h]

theorem instrAt_hash (we : Bool) {a : PortAddr} (d : Word) (h : 16 ≤ a.toNat) (h' : a.toNat < 24) :
    instrAt we a d = if we then .hashWr ⟨a.toNat - 16, by omega⟩ d else .hashRd ⟨a.toNat - 16, by omega⟩ := by
  simp [instrAt, Nat.not_lt.2 h, h']

theorem instrAt_ctrl (we : Bool) (d : Word) : instrAt we 0x18#5 d = if we then .ctrlWr d else .ctrlRd := rfl

theorem instrAt_status (we : Bool) (d : Word) : instrAt we 0x19#5 d = if we then .statusWr d else .statusRd := rfl

theorem instrAt_reservedLo (we : Bool) {a : PortAddr} (d : Word) (h : 26 ≤ a.toNat) (h' : a.toNat < 28) :
    instrAt we a d = if we then .rsvWrLo a d else .rsvRdLo a := by
  simp [instrAt, show ¬ a.toNat < 16 by omega, show ¬ a.toNat < 24 by omega, show a ≠ 24#5 by bv_omega,
    show a ≠ 25#5 by bv_omega, h']

theorem instrAt_reservedHi (we : Bool) {a : PortAddr} (d : Word) (h : 28 ≤ a.toNat) :
    instrAt we a d = if we then .rsvWrHi a d else .rsvRdHi a := by
  simp [instrAt, show ¬ a.toNat < 16 by omega, show ¬ a.toNat < 24 by omega, show a ≠ 24#5 by bv_omega,
    show a ≠ 25#5 by bv_omega, Nat.not_lt.2 h]

/-- The rows agree with the register map: location class by location class, the row that WE and ADDR select has the
operands that the map gives (rules R72 to R74). -/
theorem operands_rowOf (we : Bool) (a : PortAddr) (d : Word) :
    (rowOf we a).operands (mkTxn we a d) = instrAt we a d := by
  rcases location_cases a with h | ⟨h, h'⟩ | rfl | rfl | ⟨h, h'⟩ | h
  · rw [rowOf_msg we h, instrAt_msg we d h]
    cases we <;> simp [RowName.operands, msgIndex_mkTxn _ d h]
  · rw [rowOf_hash we h h', instrAt_hash we d h h']
    cases we <;> simp [RowName.operands, hashIndex_mkTxn _ d h' h]
  · rw [rowOf_ctrl, instrAt_ctrl]
    cases we <;> simp [RowName.operands]
  · rw [rowOf_status, instrAt_status]
    cases we <;> simp [RowName.operands]
  · rw [rowOf_reservedLo we h h', instrAt_reservedLo we d h h']
    cases we <;> simp [RowName.operands]
  · rw [rowOf_reservedHi we h, instrAt_reservedHi we d h]
    cases we <;> simp [RowName.operands]

/-- The decoder by location. -/
theorem decode_mkTxn_eq_instrAt (we : Bool) (a : PortAddr) (d : Word) : decode (mkTxn we a d) = .ok (instrAt we a d) := by
  rw [decode_mkTxn, operands_rowOf]

/-- Settles O13: the register map's two halves are `instrAt` for a read and for a write. -/
theorem decodeByLocation : Obligations.DecodeByLocation :=
  fun a d => ⟨decode_mkTxn_eq_instrAt false a d, decode_mkTxn_eq_instrAt true a d⟩

/-- The decoder on any word, by its three fields. -/
theorem decode_eq_instrAt (T : TxnWord) : decode T = .ok (instrAt T.we T.addr T.wdata) := by
  rw [← decode_mkTxn_eq_instrAt, mkTxn_fields]

/-- The instruction at a location is well formed and is a write exactly where WE is set. -/
theorem instrAt_wellFormed (we : Bool) (a : PortAddr) (d : Word) :
    (instrAt we a d).wellFormed = true ∧ (instrAt we a d).isWrite = we := by
  rcases location_cases a with h | ⟨h, h'⟩ | rfl | rfl | ⟨h, h'⟩ | h
  · rw [instrAt_msg we d h]; cases we <;> exact ⟨rfl, rfl⟩
  · rw [instrAt_hash we d h h']; cases we <;> exact ⟨rfl, rfl⟩
  · rw [instrAt_ctrl]; cases we <;> exact ⟨rfl, rfl⟩
  · rw [instrAt_status]; cases we <;> exact ⟨rfl, rfl⟩
  · have hlo : inReservedLo a = true := by simp [inReservedLo]; omega
    rw [instrAt_reservedLo we d h h']; cases we <;> exact ⟨hlo, rfl⟩
  · have hhi : inReservedHi a = true := by simp [inReservedHi]; omega
    rw [instrAt_reservedHi we d h]; cases we <;> exact ⟨hhi, rfl⟩

/-- The instruction at a location gives the location back, and its data where it is a write (rule R71). -/
theorem encode_instrAt (we : Bool) (a : PortAddr) (d : Word) :
    encode (instrAt we a d) = mkTxn we a (if we then d else 0#32) := by
  rcases location_cases a with h | ⟨h, h'⟩ | rfl | rfl | ⟨h, h'⟩ | h
  · have haddr : BitVec.ofNat 5 a.toNat = a := by rw [BitVec.ofNat_toNat, BitVec.setWidth_eq]
    rw [instrAt_msg we d h]
    cases we <;> exact congrArg (mkTxn _ · _) haddr
  · have haddr : BitVec.ofNat 5 (0x10 + (a.toNat - 16)) = a := by bv_omega
    rw [instrAt_hash we d h h']
    cases we <;> exact congrArg (mkTxn _ · _) haddr
  · rw [instrAt_ctrl]; cases we <;> rfl
  · rw [instrAt_status]; cases we <;> rfl
  · rw [instrAt_reservedLo we d h h']; cases we <;> rfl
  · rw [instrAt_reservedHi we d h]; cases we <;> rfl

/-- Settles O11: a word decodes to the instruction at its location, whose encoding has the word's WE and ADDR, and its
WDATA where it is a write. -/
theorem encodeOfDecode : Obligations.EncodeOfDecode := by
  intro T i hdec
  obtain rfl : instrAt T.we T.addr T.wdata = i := by
    rw [decode_eq_instrAt] at hdec
    exact Except.ok.inj hdec
  obtain ⟨hwf, hwe⟩ := instrAt_wellFormed T.we T.addr T.wdata
  refine ⟨hwf, hwe, fun hw => ?_, fun hr => ?_⟩
  · rw [encode_instrAt, hw, if_pos rfl, ← hw, mkTxn_fields]
  · rw [encode_instrAt, hr, if_neg Bool.false_ne_true]

/-- A transaction word as a number, from its three fields (rule R71). -/
theorem mkTxn_eq_ofNat (we : Bool) (a : PortAddr) (d : Word) :
    mkTxn we a d = BitVec.ofNat 38 ((we.toNat * 2 ^ 5 + a.toNat) * 2 ^ 32 + d.toNat) := by
  have hnum : (mkTxn we a d).toNat = (we.toNat * 2 ^ 5 + a.toNat) * 2 ^ 32 + d.toNat := by
    show ((BitVec.ofBool we ++ a) ++ d).toNat = _
    rw [BitVec.toNat_append, BitVec.toNat_append, ← Nat.shiftLeft_add_eq_or_of_lt a.isLt,
      ← Nat.shiftLeft_add_eq_or_of_lt d.isLt, BitVec.toNat_ofBool, Nat.shiftLeft_eq, Nat.shiftLeft_eq]
  rw [← hnum, BitVec.ofNat_toNat, BitVec.setWidth_eq]

/-- Settles O14: the eleven lines are evaluated. -/
theorem workedEncodings : Obligations.WorkedEncodings := by
  unfold Obligations.WorkedEncodings
  decide

namespace Machine

/-- The word of a line of `load` (rule R78). -/
theorem word_wr_msg (i : Fin 16) (x : Word) :
    (AsmLine.wr (.msg i) x).word = BitVec.ofNat 38 ((0x20 + i.val) * 2 ^ 32 + x.toNat) := by
  have haddr : (BitVec.ofNat 5 i.val).toNat = i.val := by rw [BitVec.toNat_ofNat]; omega
  simp only [AsmLine.word, Reg.portAddr, mkTxn_eq_ofNat, haddr, Bool.toNat_true, Nat.one_mul, Nat.reducePow]

/-- Settles O15: the fixed pseudo-instructions are evaluated, and line i of `load` is the write of word i. -/
theorem pseudoInstructionWords : Obligations.PseudoInstructionWords := by
  refine ⟨by decide, by decide, by decide, by decide, by decide, by decide, fun B => ⟨?_, fun i => ?_⟩⟩
  · rw [Pseudo.words, Pseudo.expand, List.length_map, List.length_ofFn]
  · rw [Pseudo.words, Pseudo.expand, List.getElem?_map, List.getElem?_ofFn, dif_pos i.isLt]
    exact congrArg some (word_wr_msg i B[i])

end Machine

end Sys2Proof
end

section
/-! PROOF. The tables and the pure functions of a block: the check of K and IV (10_state.md section 5), which words a schedule
word reads (rule R106), and the rounds of a block one by one (rule R132). -/

namespace Sys2Proof.Machine

/-- Settles O7: the inequalities of the 72 entries are evaluated. -/
theorem tablesAreRootsOfPrimes : Obligations.TablesAreRootsOfPrimes := by
  unfold Obligations.TablesAreRootsOfPrimes
  decide

/-- The element read, as the library's lookup. -/
theorem scheduleWord_eq_join (w : Vector (Option Word) 64) (n : Nat) : scheduleWord w n = w[n]?.join := by
  by_cases h : n < 64
  · rw [scheduleWord_of_lt w h, Vector.getElem?_eq_getElem h, Option.join_some]
  · simp [scheduleWord, h]

/-- Rule R106 for the engine's storage: from round 16 on, only the four elements are read. -/
theorem expandedWord_congr {w w' : Vector (Option Word) 64} {t : Nat} (ht : 16 ≤ t)
    (h : ∀ k, k = 2 ∨ k = 7 ∨ k = 15 ∨ k = 16 → w[t - k]? = w'[t - k]?) : expandedWord w t = expandedWord w' t := by
  have hread : ∀ k, k = 2 ∨ k = 7 ∨ k = 15 ∨ k = 16 → scheduleWord w (t - k) = scheduleWord w' (t - k) := by
    intro k hk
    rw [scheduleWord_eq_join, h k hk, ← scheduleWord_eq_join]
  simp only [expandedWord, Nat.not_lt.2 ht, if_false, hread 2 (by decide), hread 7 (by decide), hread 15 (by decide),
    hread 16 (by decide)]

/-- Rule R106 for the pure function: only the four words are read. -/
theorem nextScheduleWord_congr {ws ws' : List Word} (hlen : ws'.length = ws.length)
    (h : ∀ k, k = 2 ∨ k = 7 ∨ k = 15 ∨ k = 16 → ws[ws.length - k]? = ws'[ws.length - k]?) :
    nextScheduleWord ws = nextScheduleWord ws' := by
  simp only [nextScheduleWord, hlen, List.getD_eq_getElem?_getD, h 2 (by decide), h 7 (by decide), h 15 (by decide),
    h 16 (by decide)]

/-- Settles O9: the storage and the pure function each read four words. -/
theorem scheduleNeedsFourWords : Obligations.ScheduleNeedsFourWords :=
  ⟨fun _ _ _ ht _ => expandedWord_congr ht, fun _ _ _ => nextScheduleWord_congr⟩

/-- The pair of round t is its constant and its schedule word. -/
theorem getElem?_roundInputs (M : MsgBlock) {t : Nat} (ht : t < 64) : (roundInputs M)[t]? = some (K[t], schedAt M t) := by
  have hlen : t < (sched M).length := by rwa [length_sched]
  rw [roundInputs, List.getElem?_zip_eq_some]
  refine ⟨by simp [ht], ?_⟩
  rw [List.getElem?_eq_getElem hlen, schedAt, List.getD_eq_getElem _ _ hlen]

/-- Rule R132: each round is one application of the round of rule R130. -/
theorem varsAfter_succ (H : HashState) (M : MsgBlock) {t : Nat} (ht : t < 64) :
    varsAfter H M (t + 1) = (varsAfter H M t).round K[t] (schedAt M t) := by
  rw [varsAfter, List.take_add_one, getElem?_roundInputs M ht, Option.toList_some, runRounds_append, varsAfter]

/-- Settles O37: the seeding and the fold are the definitions, the rounds are `varsAfter_succ`. -/
theorem roundsOfBlock : Obligations.RoundsOfBlock :=
  fun H M => ⟨rfl, fun _ => varsAfter_succ H M, rfl⟩

end Sys2Proof.Machine
end

section
/-! PROOF. The step, turn by turn (rules R20, R55 and R74): a host transaction by its location (rules R72, R150 and R151), an
access on the bus (rule R54), an engine turn beside an idle block (rule R238), a state that breaks rule R36 (rule R227). -/

namespace Sys2Proof.Machine

/-- Settles O49: the turn is decoded and runs. -/
theorem stepRunsTransaction : Obligations.StepRunsTransaction := by
  intro s T rest i hc ha hdec
  rw [step_turn hc ha, takeTurn, hostTurn, hdec]

/-- A step on a host turn runs the instruction at the location that its word names. -/
theorem step_host {s : State} {T : TxnWord} {rest : List Turn} (hc : consistent s = true)
    (ha : s.agenda = .host T :: rest) : step s = exec (instrAt T.we T.addr T.wdata) { s with agenda := rest } :=
  stepRunsTransaction s T rest _ hc ha (decode_eq_instrAt T)

/-- A number that decodes is a transaction word. -/
theorem txnOfNumber_of_decodeTableWord {nbits w : Nat} {i : Instr} (h : decodeTableWord nbits w = some i) :
    ∃ T, txnOfNumber nbits w = .ok T ∧ decode T = .ok i := by
  unfold decodeTableWord decodeNumber at h
  cases hT : txnOfNumber nbits w with
  | error e => simp [hT] at h
  | ok T =>
    rw [hT] at h
    cases hdec : decode T with
    | error e => simp [hdec] at h
    | ok j => exact ⟨T, rfl, by simpa [hdec] using h⟩

/-- Settles O50: the placed word is the head of the agenda, and the step takes it off. -/
theorem placedTransactionRunsNext : Obligations.PlacedTransactionRunsNext := by
  intro s w i hc hw
  obtain ⟨T, hT, hdec⟩ := txnOfNumber_of_decodeTableWord hw
  rw [State.withFetchWord, placeTransaction, hT]
  exact stepRunsTransaction _ T s.agenda i hc rfl hdec

/-- Settles O16: each read row gives its `readValue`, and nothing else. -/
theorem readRowsAnswer : Obligations.ReadRowsAnswer :=
  fun s => ⟨fun _ => exec_of_read rfl s, fun _ => exec_of_read rfl s, exec_of_read rfl s, exec_of_read rfl s,
    fun _ => exec_of_read rfl s, fun _ => exec_of_read rfl s⟩

/-- The rows of the reads and the register map agree (rules R72 and R74). -/
theorem readValue_instrAt (a : PortAddr) (d : Word) (s : State) :
    readValue (instrAt false a d) s = locationValue s a := by
  rcases location_cases a with h | ⟨h, h'⟩ | rfl | rfl | ⟨h, h'⟩ | h
  · rw [instrAt_msg false d h]
    simp [readValue, locationValue, h]
  · rw [instrAt_hash false d h h']
    simp [readValue, locationValue, Nat.not_lt.2 h, h']
  · rfl
  · rfl
  · rw [instrAt_reservedLo false d h h']
    simp [readValue, locationValue, show ¬ a.toNat < 16 by omega, show ¬ a.toNat < 24 by omega,
      show a ≠ 25#5 by bv_omega]
  · rw [instrAt_reservedHi false d h]
    simp [readValue, locationValue, show ¬ a.toNat < 16 by omega, show ¬ a.toNat < 24 by omega,
      show a ≠ 25#5 by bv_omega]

/-- Settles O17: what a read decodes to is a read, and its answer is the register map's. -/
theorem everyReadTransaction : Obligations.EveryReadTransaction := by
  intro s T rest hc ha hr
  obtain ⟨-, hread⟩ := instrAt_wellFormed T.we T.addr T.wdata
  rw [step_host hc ha, exec_of_read (hread.trans hr), hr, readValue_instrAt]
  rfl

/-- Settles O24: the gate and then the register map, by `step_hostWrite`. -/
theorem everyWriteTransaction : Obligations.EveryWriteTransaction := by
  intro s T rest hc ha hw
  have hstep := step_hostWrite hc ha hw
  refine ⟨fun hp => ?_, fun hp => ?_⟩
  · rw [hstep, gate_run _ (by simpa using hp), recordError_respondNothing]; rfl
  · rw [hstep, gate_idle _ (by simpa using hp)]; rfl

/-- Settles O19: the write is `setMsg`, which sets one element of MSG. -/
theorem messageWriteStores : Obligations.MessageWriteStores := by
  intro s i d hp
  refine ⟨_, exec_write_idle rfl hp, ?_, fun j hj => ?_, rfl⟩
  · simp [writeRule]
  · have hne : i.val ≠ j.val := fun e => hj (Fin.ext e.symm)
    simp [writeRule, hne]

/-- CORE_BASE is a whole number of words (rule R54, decision D30). -/
theorem coreBase_mod_four : Config.coreBase % 4 = 0 := by simp [Config.coreBase]

/-- An aligned 32-bit access at CORE_BASE + 4·ADDR (rule R54). -/
theorem busTransaction_location {acc : BusAccess} {a : PortAddr} (hbytes : acc.bytes = 4)
    (haddr : acc.byteAddr = Config.coreBase + 4 * a.toNat) :
    busTransaction acc = .ok (mkTxn acc.write a acc.data) := by
  have hbase := coreBase_mod_four
  have hlt := a.isLt
  have hloc : BitVec.ofNat 5 ((acc.byteAddr - Config.coreBase) / 4) = a := by
    rw [haddr, show (Config.coreBase + 4 * a.toNat - Config.coreBase) / 4 = a.toNat by omega, BitVec.ofNat_toNat,
      BitVec.setWidth_eq]
  rw [busTransaction, if_neg (not_not.2 hbytes), if_neg (by omega), if_neg (by omega), hloc]

/-- A step on a bus turn whose access the adapter accepts is the step on its transaction. -/
theorem step_bus_ok {s : State} {acc : BusAccess} {rest : List Turn} {T : TxnWord} (hc : consistent s = true)
    (ha : s.agenda = .bus acc :: rest) (hT : busTransaction acc = .ok T) :
    step s = step { s with agenda := .host T :: rest } := by
  have hc' : consistent { s with agenda := .host T :: rest } = true := (consistent_environment _ _ _).trans hc
  rw [step_turn hc ha, step_turn (x := .host T) (rest := rest) hc' rfl, takeTurn, takeTurn, busTurn, hT]

/-- A step on a bus turn whose access the adapter refuses. -/
theorem step_bus_error {s : State} {acc : BusAccess} {rest : List Turn} {r : Refusal} (hc : consistent s = true)
    (ha : s.agenda = .bus acc :: rest) (hr : busTransaction acc = .error r) : step s = .refused r := by
  rw [step_turn hc ha, takeTurn, busTurn, hr]

/-- Settles O51: the adapter's checks in order, each with those before it passed. -/
theorem busAccessReachesLocation : Obligations.BusAccessReachesLocation := by
  intro s acc rest hc ha
  refine ⟨fun a hbytes haddr => step_bus_ok hc ha (busTransaction_location hbytes haddr), fun hbytes => ?_,
    fun hbytes halign => ?_, fun hbytes halign hout => ?_⟩ <;> refine step_bus_error hc ha ?_
  · rw [busTransaction, if_pos (Nat.ne_of_lt hbytes)]
  · rw [busTransaction, if_neg (not_not.2 hbytes), if_pos halign]
  · rw [busTransaction, if_neg (not_not.2 hbytes), if_neg (not_not.2 halign), if_pos hout]

/-- A step on the engine's turn, be it on the agenda or the agenda empty. -/
theorem step_of_engineTurn {s : State} (hc : consistent s = true) (h : engineTurn s = true) :
    step s = engineStep (afterTurn s) := by
  unfold engineTurn at h
  cases ha : s.agenda with
  | nil => rw [step_empty hc ha, afterTurn, ha, List.tail_nil, ← ha]
  | cons x rest =>
    obtain rfl : x = .engine := by simpa [ha] using h
    rw [step_turn hc ha, takeTurn, afterTurn, ha, List.tail_cons]

/-- Settles O48: an idle engine's turn passes. -/
theorem idleBlockRests : Obligations.IdleBlockRests := by
  intro s hc hp h
  rw [step_of_engineTurn hc h, engineStep_idle (by simpa using hp), afterTurn]

/-- Settles O45: rule R36 bounds ERRCODE at 4. -/
theorem brokenStatesFault : Obligations.BrokenStatesFault := by
  refine ⟨fun s => step_broken, fun s hcode => step_broken (Bool.eq_false_iff.2 fun hc => ?_)⟩
  have hle := consistent_errcode_le hc
  omega

/-- Settles O46: the reset values, element by element. -/
theorem resetState : Obligations.ResetState := by
  refine ⟨by decide, fun i => ?_, fun _ => rfl, rfl, fun i => ?_, rfl, rfl, rfl, rfl, rfl⟩ <;> simp [State.reset]

/-- Settles O52: only element k of the instances is set. -/
theorem instancesAreIndependent : Obligations.InstancesAreIndependent := by
  refine ⟨fun S k s' h => ⟨⟨S.cores.set k s'⟩, by rw [Instances.stepAt, h], ?_, fun j hj => ?_⟩, fun k => ?_, ?_⟩
  · simp
  · have hne : k.val ≠ j.val := fun e => hj (Fin.ext e.symm)
    simp [hne]
  · simp [Instances.reset]
  · exact Nat.le_add_left 1 _

end Sys2Proof.Machine
end

section
/-! PROOF. Who writes what, over all steps (10_state.md sections 3 and 4): each element of the state after a step, read off
the forms of a step. -/

namespace Sys2Proof.Machine

/-- Settles O28: a step that records keeps the first error, and the others leave it or clear it. -/
theorem errorStaysUntilCleared : Obligations.ErrorStaysUntilCleared := by
  intro s t h he
  rcases step_error h with ⟨-, hr, hcmd, -, e, rfl⟩ | ⟨herr, hcode⟩
  · exact .inl ⟨by simp, by simp [he], hcmd, hr⟩
  · cases hclear : commandTurn 2 s || resetTurn s with
    | true =>
      rw [hclear] at herr hcode
      exact .inr ⟨herr, hcode, Bool.or_eq_true_iff.1 hclear⟩
    | false =>
      rw [hclear] at herr hcode
      obtain ⟨hcmd, hr⟩ := Bool.or_eq_false_iff.1 hclear
      exact .inl ⟨herr.trans he, hcode, hcmd, hr⟩

/-- Settles O29: reset and the accepted MSG write are the two forms of a step that write MSG. -/
theorem messageWriters : Obligations.MessageWriters := by
  intro s t h
  obtain ⟨-, hidle | hround | hfold | hreset | hread | hbusy | hmsg | hrefused | hcommand⟩ := step_forms h
  · obtain ⟨-, -, -, -, rfl⟩ := hidle
    exact .inl rfl
  · obtain ⟨-, -, -, -, ht, v, wt, -, -, rfl⟩ := hround
    exact .inl rfl
  · obtain ⟨-, -, -, -, ht, v, -, rfl⟩ := hfold
    exact .inl rfl
  · obtain ⟨-, hr, -, rfl⟩ := hreset
    exact .inr (.inl ⟨hr, rfl⟩)
  · obtain ⟨-, -, i, -, -, rfl⟩ := hread
    exact .inl rfl
  · obtain ⟨-, -, i, -, -, -, rfl⟩ := hbusy
    exact .inl (by simp)
  · obtain ⟨-, -, hp, i, d, hi, rfl⟩ := hmsg
    exact .inr (.inr ⟨i, d, hp, hi, rfl⟩)
  · obtain ⟨-, -, -, i, e, -, -, -, -, rfl⟩ := hrefused
    exact .inl (by simp)
  · obtain ⟨-, -, -, d, -, -, rfl⟩ := hcommand
    obtain ⟨hmsg, -⟩ := command_frame d (respondNothing (afterTurn s))
    exact .inl hmsg

/-- Settles O30: `step_hash` clause by clause; a fold coincides with neither INIT nor reset. -/
theorem hashWriters : Obligations.HashWriters := by
  intro s t h
  rcases step_hash h with ⟨hf, hfold⟩ | ⟨hf, hhash⟩
  · refine ⟨fun hcmd => ?_, fun hr => ?_, fun _ => hfold, fun _ _ hno => ?_⟩
    · simp [foldTurn_of_commandTurn hcmd] at hf
    · simp [foldTurn_of_resetTurn hr] at hf
    · simp [hno] at hf
  · refine ⟨fun hcmd => ?_, fun hr => ?_, fun hno => ?_, fun hcmd hr _ => ?_⟩
    · simp [hhash, hcmd]
    · simp [hhash, hr]
    · simp [hf] at hno
    · simp [hhash, hcmd, hr]

/-- An accepted command, taken apart (rules R151 and R156). -/
theorem commandTurn_iff {s : State} {bit : Nat} :
    commandTurn bit s = true ↔
      s.phase = .idle ∧ ∃ d, pendingInstr s = some (.ctrlWr d) ∧ ctrlReserved d = 0#29 ∧ d.getLsbD bit = true := by
  constructor
  · intro h
    cases hp : s.phase with
    | run => simp [commandTurn_run hp] at h
    | idle =>
      cases hi : pendingInstr s with
      | none => simp [commandTurn_none hi] at h
      | some i =>
        by_cases hctrl : ∃ d, i = .ctrlWr d
        · obtain ⟨d, rfl⟩ := hctrl
          by_cases hd : ctrlReserved d = 0#29
          · rw [commandTurn_accepted hp hi hd] at h
            exact ⟨rfl, d, rfl, hd, h⟩
          · simp [commandTurn_reserved hi hd] at h
        · simp [commandTurn_other hi (fun d e => hctrl ⟨d, e⟩)] at h
  · rintro ⟨hp, d, hi, hd, hbit⟩
    rw [commandTurn_accepted hp hi hd, hbit]

/-- A step that accepts a command is that command, whose bits are the ones it was asked for. -/
theorem step_of_commandTurn {s t : State} {bit : Nat} (h : step s = .next t) (hcmd : commandTurn bit s = true) :
    ∃ d, ctrlReserved d = 0#29 ∧ (∀ b, commandTurn b s = d.getLsbD b) ∧
      t = command d (respondNothing (afterTurn s)) := by
  obtain ⟨hp, d, hi, hd, -⟩ := commandTurn_iff.1 hcmd
  refine ⟨d, hd, fun b => commandTurn_accepted hp hi hd b, ?_⟩
  obtain ⟨-, ⟨-, -, hnone, -⟩ | ⟨-, -, i, hi', hexec⟩ | ⟨-, -, hnone, -⟩⟩ := step_inversion h
  · simp [hnone] at hi
  · obtain rfl : i = .ctrlWr d := by simpa [hi'] using hi
    rw [exec_ctrlWr_idle d (by simpa using hp)] at hexec
    injection hexec with e
    exact e.symm
  · simp [hnone] at hi

/-- An accepted command with NEXT set leaves a block with no round done: the schedule is MSG, and a..h are seeded from the
H that the command leaves (rules R101, R129 and R159). -/
theorem command_inFlight {d : Word} (hd : ctrlReserved d = 0#29) (hn : d.getLsbD 1 = true) (s : State) :
    InFlight (if d.getLsbD 0 then IV else s.hash) s.msg 0 (command d s) := by
  obtain ⟨hp, ht, hw, hwork⟩ := command_next hd hn s
  have hhash := command_hash hd s
  refine ⟨hp, Nat.zero_le 64, ht, hhash, by rw [hwork, hhash]; rfl, fun i => ?_⟩
  rw [hw, Fin.getElem_fin, getElem_loadSchedule _ _ i.isLt]
  by_cases hi : i.val < 16
  · simp [hi, schedAt_eq_getElem]
  · simp [hi]

/-- Settles O38: the step is the command, and the command starts the block. -/
theorem nextStartsBlock : Obligations.NextStartsBlock := by
  intro s t h hnext
  obtain ⟨d, hd, hbits, rfl⟩ := step_of_commandTurn h hnext
  obtain ⟨hmsg, -⟩ := command_frame d (respondNothing (afterTurn s))
  rw [hbits 0]
  exact ⟨command_inFlight hd ((hbits 1).symm.trans hnext) _, hmsg⟩

/-- The phase after a step, over all nine forms of a step: fold and reset end in IDLE, NEXT in RUN, and no other step
writes it (rule R26). -/
theorem step_phase {s t : State} (h : step s = .next t) :
    t.phase = if foldTurn s || resetTurn s then .idle else if commandTurn 1 s then .run else s.phase := by
  obtain ⟨-, hidle | hround | hfold | hreset | hread | hbusy | hmsg | hrefused | hcommand⟩ := step_forms h
  · obtain ⟨-, hr, hi, hp, rfl⟩ := hidle
    simp [foldTurn_idle hp, commandTurn_none hi, hr]
  · obtain ⟨-, hr, hi, -, ht, v, wt, -, -, rfl⟩ := hround
    simp [foldTurn_of_lt ht, commandTurn_none hi, hr]
  · obtain ⟨he, -, -, hp, ht, v, -, rfl⟩ := hfold
    simp [foldTurn_iff.2 ⟨he, hp, ht⟩]
  · obtain ⟨-, hr, -, rfl⟩ := hreset
    simp [hr]
  · obtain ⟨he, hr, i, hi, hw, rfl⟩ := hread
    simp [foldTurn_of_not_engineTurn he, commandTurn_read hi hw, hr]
  · obtain ⟨he, hr, i, -, -, hp, rfl⟩ := hbusy
    simp [foldTurn_of_not_engineTurn he, commandTurn_run hp, hr]
  · obtain ⟨he, hr, -, i, d, hi, rfl⟩ := hmsg
    have hno : commandTurn 1 s = false := commandTurn_other hi (by simp) 1
    simp [foldTurn_of_not_engineTurn he, hno, hr]
  · obtain ⟨he, hr, -, i, e, hi, -, -, href, rfl⟩ := hrefused
    simp [foldTurn_of_not_engineTurn he, commandTurn_refused hi href, hr]
  · obtain ⟨he, hr, hp, d, hi, hd, rfl⟩ := hcommand
    have hphase : (command d (respondNothing (afterTurn s))).phase = if d.getLsbD 1 then .run else s.phase := by
      rw [command_eq hd]; rfl
    simp [foldTurn_of_not_engineTurn he, commandTurn_accepted hp hi hd, hphase, hr]

/-- Reset's turn is no host transaction. -/
theorem pendingInstr_of_resetTurn {s : State} (h : resetTurn s = true) : pendingInstr s = none := by
  unfold resetTurn at h
  unfold pendingInstr
  cases ha : s.agenda with
  | nil => rfl
  | cons x rest =>
    obtain rfl : x = .reset := by simpa [ha] using h
    rfl

/-- Settles O32: `step_phase` from each phase; the state after NEXT is a block with no round done. -/
theorem phaseTransitions : Obligations.PhaseTransitions := by
  intro s t h
  have hphase := step_phase h
  refine ⟨fun hp => ?_, fun hp => ?_, fun hnext => ?_⟩
  · rw [hphase, foldTurn_idle hp, hp]
    cases hr : resetTurn s with
    | false => cases commandTurn 1 s <;> simp
    | true =>
      have hno : commandTurn 1 s = false := commandTurn_none (pendingInstr_of_resetTurn hr) 1
      simp [hno]
  · rw [hphase, commandTurn_run hp, hp]
    cases foldTurn s <;> cases resetTurn s <;> simp
  · obtain ⟨⟨hrun, -, ht, -⟩, -⟩ := nextStartsBlock s t h hnext
    obtain ⟨hp, -⟩ := commandTurn_iff.1 hnext
    exact ⟨hp, busy_iff.2 hrun, by rw [roundField_eq, if_pos hrun, ht]⟩

/-- Settles O33: the forms of a step that write W, a..h or t are a round, a fold, reset, and a command with NEXT set. -/
theorem engineStateWriters : Obligations.EngineStateWriters := by
  intro s t h hnext hround hfold hreset
  obtain ⟨-, hidle | hr | hf | hrst | hread | hbusy | hmsg | hrefused | hcommand⟩ := step_forms h
  · obtain ⟨-, -, -, -, rfl⟩ := hidle
    exact ⟨rfl, rfl, rfl⟩
  · obtain ⟨he, -, -, hp, ht, -⟩ := hr
    simp [roundTurn_iff.2 ⟨he, hp, Nat.le_of_lt_succ ht⟩] at hround
  · obtain ⟨he, -, -, hp, ht, -⟩ := hf
    simp [foldTurn_iff.2 ⟨he, hp, ht⟩] at hfold
  · obtain ⟨-, hr, -⟩ := hrst
    simp [hr] at hreset
  · obtain ⟨-, -, i, -, -, rfl⟩ := hread
    exact ⟨rfl, rfl, rfl⟩
  · obtain ⟨-, -, i, -, -, -, rfl⟩ := hbusy
    simp
  · obtain ⟨-, -, -, i, d, -, rfl⟩ := hmsg
    exact ⟨rfl, rfl, rfl⟩
  · obtain ⟨-, -, -, i, e, -, -, -, -, rfl⟩ := hrefused
    simp
  · obtain ⟨-, -, hp, d, hi, hd, rfl⟩ := hcommand
    rw [commandTurn_accepted hp hi hd] at hnext
    obtain ⟨-, ht, hw, hwork⟩ := command_without_next hd hnext (respondNothing (afterTurn s))
    exact ⟨hw, hwork, ht⟩

end Sys2Proof.Machine
end

section
/-! PROOF. What every step keeps: the invariants of rule R36, and a block in progress (rules R105 and R132). The invariants
make every step complete; the block goes on by engine turns alone. -/

namespace Sys2Proof.Machine

/-- The row's own rule of a write keeps the invariants of rule R36. -/
theorem writeRule_consistent (i : Instr) {s : State} (hp : s.phase = .idle) (hc : consistent s = true) :
    consistent (writeRule i s) = true := by
  cases i with
  | msgWr k d => exact hc
  | ctrlWr d =>
    by_cases hd : ctrlReserved d = 0#29
    · exact command_consistent hd hp hc
    · rw [writeRule, command_reserved hd]; exact recordError_consistent _ hc
  | hashWr | statusWr | rsvWrLo | rsvWrHi => exact recordError_consistent _ hc
  | msgRd | hashRd | ctrlRd | statusRd | rsvRdLo | rsvRdHi => exact hc

/-- A host transaction keeps the invariants of rule R36. -/
theorem exec_consistent {i : Instr} {s t : State} (hc : consistent s = true) (h : exec i s = .next t) :
    consistent t = true := by
  have hc' : consistent (respondNothing s) = true := hc
  rcases exec_cases h with ⟨-, rfl⟩ | ⟨-, -, rfl⟩ | ⟨-, hp, rfl⟩
  · exact hc
  · exact recordError_consistent _ hc'
  · exact writeRule_consistent i (by simpa using hp) hc'

/-- The state after reset satisfies rule R36. -/
theorem reset_consistent : consistent State.reset = true := by decide

/-- A step ends in a state that satisfies rule R36. -/
theorem step_consistent {s t : State} (h : step s = .next t) : consistent t = true := by
  obtain ⟨hc, h⟩ := step_inversion h
  have hc' : consistent (afterTurn s) = true := hc
  rcases h with ⟨-, -, -, hengine⟩ | ⟨-, -, i, -, hexec⟩ | ⟨-, -, -, rfl⟩
  · exact engineStep_consistent hc' hengine
  · exact exec_consistent hc' hexec
  · exact reset_consistent

/-- ERR and ERRCODE under rule R36: the legal values of ERRCODE, listed. -/
theorem errorFieldsOk_iff_values {s : State} :
    errorFieldsOk s = true ↔
      (s.err = false ↔ s.errcode = 0#4) ∧
      (s.err = true → s.errcode = 1#4 ∨ s.errcode = 2#4 ∨ s.errcode = 3#4 ∨ s.errcode = 4#4) := by
  rw [errorFieldsOk_iff]
  generalize s.err = err, s.errcode = code
  revert err code
  decide

/-- The two halves of "W[i] is a word exactly for i below the bound". -/
theorem isSome_iff_lt {x : Option Word} {i bound : Nat} :
    (x.isSome = true ↔ i < bound) ↔ (i < bound → ∃ y, x = some y) ∧ (bound ≤ i → x = none) := by
  by_cases h : i < bound
  · simp [h, Nat.not_le.2 h, Option.isSome_iff_exists]
  · simp [h, Nat.not_lt.1 h]

/-- Eight words in a..h, as the statements write them. -/
theorem exists_store_iff {x : Work} :
    (∃ v, x = Vars.store v) ↔ ∃ a b c d e f g h : Word,
      x = ⟨some a, some b, some c, some d, some e, some f, some g, some h⟩ :=
  ⟨fun ⟨v, hv⟩ => ⟨v.a, v.b, v.c, v.d, v.e, v.f, v.g, v.h, hv⟩,
    fun ⟨a, b, c, d, e, f, g, h, hx⟩ => ⟨⟨a, b, c, d, e, f, g, h⟩, hx⟩⟩

/-- Settles O43: rule R36 is the check read clause by clause in each phase, and `step_consistent` is its preservation. -/
theorem stepKeepsInvariants : Obligations.StepKeepsInvariants := by
  refine ⟨fun s => ?_, reset_consistent, fun s t _ => step_consistent⟩
  cases hp : s.phase with
  | idle =>
    rw [Consistent, consistent_idle hp, errorFieldsOk_iff_values, idleStorageOk_iff, Work.empty]
    exact ⟨fun ⟨⟨hcode, hvalues⟩, hidle⟩ => ⟨fun _ => hidle, nofun, hcode, hvalues⟩,
      fun ⟨hidle, _, hcode, hvalues⟩ => ⟨⟨hcode, hvalues⟩, hidle rfl⟩⟩
  | run =>
    rw [Consistent, consistent_run hp, errorFieldsOk_iff_values, runStorageOk_iff, exists_store_iff]
    simp only [isSome_iff_lt]
    exact ⟨fun ⟨⟨hcode, hvalues⟩, hrun⟩ => ⟨nofun, fun _ => hrun, hcode, hvalues⟩,
      fun ⟨_, hrun, hcode, hvalues⟩ => ⟨⟨hcode, hvalues⟩, hrun trivial⟩⟩

/-- Settles O44: an engine turn and a host transaction always complete, and so does reset. -/
theorem consistentStepsComplete : Obligations.ConsistentStepsComplete := by
  intro s hc hbus
  suffices h : ∃ t, step s = .next t from h.imp fun t ht => ⟨ht, step_consistent ht⟩
  have hc' : consistent (afterTurn s) = true := hc
  cases ha : s.agenda with
  | nil => rw [step_empty hc ha]; exact engineStep_next hc
  | cons x rest =>
    cases x with
    | host T => rw [step_host hc ha]; exact exec_next _ _
    | bus acc =>
      obtain ⟨T, hT⟩ := hbus acc (by rw [ha, List.head?_cons])
      have hc'' : consistent { s with agenda := .host T :: rest } = true := hc
      rw [step_bus_ok hc ha hT, step_host hc'' rfl]
      exact exec_next _ _
    | engine => rw [step_of_engineTurn hc (by simp [engineTurn, ha])]; exact engineStep_next hc'
    | reset => exact ⟨_, step_reset hc ha⟩

/-- Settles O34: `engineStep_next` gives the step, and `engineStep_cases` says which one it is. -/
theorem engineDispatch : Obligations.EngineDispatch := by
  intro s hc
  refine ⟨engineStep_idle, fun hp => ⟨consistent_t_le hc, ?_⟩⟩
  obtain ⟨t, hstep⟩ := engineStep_next hc
  refine ⟨t, hstep, ?_⟩
  rcases engineStep_cases hstep with ⟨hidle, -⟩ | ⟨-, ht, v, wt, -, -, rfl⟩ | ⟨-, ht, v, -, rfl⟩
  · simp [hp] at hidle
  · have hsucc := toNat_roundCounter_succ ht
    refine ⟨fun e => ?_, rfl, rfl, rfl, fun _ => ⟨hp, hsucc, rfl, rfl⟩, fun h => by omega⟩
    have hsame : s.t + 1#7 = s.t := congrArg State.t e
    rw [hsame] at hsucc
    omega
  · refine ⟨fun e => ?_, rfl, rfl, rfl, fun h => by omega, fun _ => ⟨rfl, rfl⟩⟩
    have hsame : Phase.idle = s.phase := congrArg State.phase e
    simp [hp] at hsame

/-- W as far as it has been computed gives the next schedule word (rules R100 and R103). -/
theorem expandedWord_of_schedule {M : MsgBlock} {n : Nat} {w : Vector (Option Word) 64} (hn : n < 64)
    (hw : ∀ i : Fin 64, w[i] = if i.val < max 16 n then some (schedAt M i.val) else none) :
    expandedWord w n = some (schedAt M n) := by
  have hread : ∀ (k : Nat) (h : k < 64), k < max 16 n → w[k] = some (schedAt M k) :=
    fun k h hk => (hw ⟨k, h⟩).trans (if_pos hk)
  by_cases h : n < 16
  · rw [expandedWord_of_lt w h, hread n hn (by omega)]
  · rw [schedAt_recurrence M (by omega) hn]
    exact expandedWord_of_ge (by omega) hn (hread _ _ (by omega)) (hread _ _ (by omega)) (hread _ _ (by omega))
      (hread _ _ (by omega))

/-- The round counter of a block with n rounds done. -/
theorem inFlight_toNat_t {H : HashState} {M : MsgBlock} {n : Nat} {s : State} (h : InFlight H M n s) :
    s.t.toNat = n := by
  obtain ⟨-, hn, ht, -⟩ := h
  rw [ht, BitVec.toNat_ofNat]
  omega

/-- An engine turn does the next round of a block in progress (rules R105, R130 and R132). -/
theorem inFlight_engineStep_round {H : HashState} {M : MsgBlock} {n : Nat} {s : State} (h : InFlight H M n s)
    (hn : n < 64) : ∃ t, engineStep s = .next t ∧ InFlight H M (n + 1) t ∧ t.msg = s.msg := by
  have ht := inFlight_toNat_t h
  obtain ⟨hp, -, htn, hhash, hwork, hw⟩ := h
  have hword : expandedWord s.w s.t.toNat = some (schedAt M n) := by rw [ht]; exact expandedWord_of_schedule hn hw
  refine ⟨_, engineStep_round hp (ht ▸ hn) hwork hword, ⟨hp, hn, ?_, hhash, ?_, fun i => ?_⟩, rfl⟩
  · simp only [htn]
    bv_omega
  · simp only [varsAfter_succ H M hn, ht]
  · simp only [Fin.getElem_fin, getElem_storeExpanded, ht]
    have hi := hw i
    rw [Fin.getElem_fin] at hi
    rw [hi]
    by_cases hlast : 16 ≤ n ∧ i.val = n
    · simp [hlast]
    · have hsame : i.val < max 16 (n + 1) ↔ i.val < max 16 n := by omega
      simp only [if_neg hlast, hsame]

/-- An engine turn folds a block whose rounds are done (rules R131 and R132). -/
theorem inFlight_engineStep_fold {H : HashState} {M : MsgBlock} {s : State} (h : InFlight H M 64 s) :
    ∃ t, engineStep s = .next t ∧ t.phase = .idle ∧ t.hash = compress H M ∧ t.valid = true ∧ t.msg = s.msg := by
  have ht := inFlight_toNat_t h
  obtain ⟨hp, -, -, rfl, hwork, -⟩ := h
  exact ⟨_, engineStep_fold hp ht hwork, rfl, rfl, rfl, rfl⟩

/-- A host turn leaves a block in progress as it is: while the engine runs no command is accepted (rule R151), and the
other writers of the engine's state are no host turns. -/
theorem inFlight_step_host {H : HashState} {M : MsgBlock} {n : Nat} {s t : State} (h : InFlight H M n s)
    (hstep : step s = .next t) (he : engineTurn s = false) (hr : resetTurn s = false) : InFlight H M n t := by
  obtain ⟨hp, hn, ht, hhash, hwork, hw⟩ := h
  have hround : roundTurn s = false := by simp [roundTurn, he]
  have hfold := foldTurn_of_not_engineTurn he
  have hcmd := commandTurn_run hp
  obtain ⟨htw, htwork, htt⟩ := engineStateWriters s t hstep (hcmd 1) hround hfold hr
  obtain ⟨-, -, -, hkeep⟩ := hashWriters s t hstep
  refine ⟨?_, hn, htt.trans ht, (hkeep (hcmd 0) hr hfold).trans hhash, htwork.trans hwork, fun i => ?_⟩
  · simp [step_phase hstep, hfold, hr, hcmd 1, hp]
  · rw [htw, hw i]

/-- Settles O39: a round, the fold, reset, and a host turn, each by its own lemma. -/
theorem blockFollowsCompress : Obligations.BlockFollowsCompress := by
  intro H M n s t h hstep
  obtain ⟨hc, -⟩ := step_inversion hstep
  have h' : InFlight H M n (afterTurn s) := h
  refine ⟨fun he hn => ?_, fun he hn => ?_, fun hr => ?_, fun he hr => inFlight_step_host h hstep he hr⟩
  · obtain ⟨u, hu, hflight, -⟩ := inFlight_engineStep_round h' hn
    rw [step_of_engineTurn hc he, hu] at hstep
    injection hstep with e
    exact e ▸ hflight
  · subst hn
    obtain ⟨u, hu, hp, hhash, hv, -⟩ := inFlight_engineStep_fold h'
    rw [step_of_engineTurn hc he, hu] at hstep
    injection hstep with e
    exact e ▸ ⟨hp, hhash, hv⟩
  · obtain ⟨-, hhash, -, -⟩ := hashWriters s t hstep
    exact ⟨by simp [step_phase hstep, hr], hhash hr⟩

end Sys2Proof.Machine
end

section
/-! PROOF. Runs of a block in progress: exactly 65 engine turns (rule R133), and the bounded end of every running block
(rule R271). Both take the turns of the agenda one by one; in the first the rounds done are counted, in the second the
turns and rounds left go down. -/

namespace Sys2Proof.Machine

/-- Port turns without reset. -/
def PortTurns (turns : List Turn) : Prop := ∀ x ∈ turns, onPort x = true ∧ x ≠ .reset

/-- From a state that satisfies rule R36 a step on a port turn without reset, or on none, completes. -/
theorem step_next_of_portHead {s : State} (hc : consistent s = true)
    (hhead : ∀ x ∈ s.agenda.head?, onPort x = true ∧ x ≠ .reset) : resetTurn s = false ∧ ∃ t, step s = .next t := by
  constructor
  · unfold resetTurn
    cases ha : s.agenda with
    | nil => rfl
    | cons x rest => simpa using (hhead x (by simp [ha])).2
  · obtain ⟨t, ht, -⟩ := consistentStepsComplete s hc fun a ha => by
      obtain ⟨hport, -⟩ := hhead _ ha
      cases hport
    exact ⟨t, ht⟩

/-- A running block's MSG changes only by reset (rule R151). -/
theorem step_msg_of_run {s t : State} (h : step s = .next t) (hp : s.phase = .run) (hr : resetTurn s = false) :
    t.msg = s.msg := by
  rcases messageWriters s t h with hmsg | ⟨hr', -⟩ | ⟨i, d, hidle, -⟩
  · exact hmsg
  · simp [hr] at hr'
  · simp [hp] at hidle

/-- One port turn of a block in progress: an engine turn is the next round, any other turn leaves the block as it is. -/
theorem inFlight_step {H : HashState} {M : MsgBlock} {n : Nat} {s : State} {x : Turn} {rest : List Turn}
    (hc : consistent s = true) (h : InFlight H M n s) (ha : s.agenda = x :: rest) (hport : onPort x = true ∧ x ≠ .reset)
    (hn : n + [x].count .engine ≤ 64) :
    ∃ t, step s = .next t ∧ InFlight H M (n + [x].count .engine) t ∧ t.msg = s.msg ∧ t.agenda = rest := by
  obtain ⟨hr, t, ht⟩ := step_next_of_portHead hc (by simpa [ha] using hport)
  obtain ⟨hround, -, -, hhost⟩ := blockFollowsCompress H M n s t h ht
  obtain ⟨hp, -⟩ := h
  refine ⟨t, ht, ?_, step_msg_of_run ht hp hr, by rw [step_agenda ht, ha, List.tail_cons]⟩
  by_cases hx : x = .engine
  · subst hx
    exact hround (by simp [engineTurn, ha]) hn
  · have hcount : [x].count .engine = 0 := by simp [hx]
    rw [hcount]
    exact hhost (by simp [engineTurn, ha, hx]) hr

/-- A block in progress after some port turns: as many rounds more as there are engine turns among them. -/
theorem inFlight_runSteps {H : HashState} {M : MsgBlock} {turns rest : List Turn} {n : Nat} {s : State}
    (hc : consistent s = true) (h : InFlight H M n s) (ha : s.agenda = turns ++ rest) (hports : PortTurns turns)
    (hn : n + turns.count .engine ≤ 64) :
    ∃ u, runSteps turns.length s = .next u ∧ consistent u = true ∧ InFlight H M (n + turns.count .engine) u ∧
      u.msg = s.msg ∧ u.agenda = rest := by
  induction turns generalizing n s with
  | nil => exact ⟨s, rfl, hc, h, rfl, ha⟩
  | cons x turns ih =>
    have hcount : (x :: turns).count .engine = [x].count .engine + turns.count .engine := by
      rw [← List.singleton_append, List.count_append]
    rw [hcount, ← Nat.add_assoc] at hn ⊢
    obtain ⟨hport, hports⟩ := List.forall_mem_cons.1 hports
    obtain ⟨t, ht, hflight, hmsg, hrest⟩ := inFlight_step hc h ha hport (by omega)
    obtain ⟨u, hu, hcu, hfu, hmu, hau⟩ := ih (step_consistent ht) hflight hrest hports hn
    exact ⟨u, by rw [List.length_cons, runSteps_succ ht, hu], hcu, hfu, hmu.trans hmsg, hau⟩

/-- Settles O40: the first k turns leave the block in progress, and after 64 engine turns the next one folds. -/
theorem blockTakesSixtyFiveSteps : Obligations.BlockTakesSixtyFiveSteps := by
  intro H M s before rest hc h ha hports hcount
  refine ⟨fun k hk => ?_, ?_⟩
  · have hle : (before.take k).count .engine ≤ 64 := hcount ▸ (List.take_sublist k before).count_le .engine
    obtain ⟨u, hu, -, ⟨hp, -, -, hhash, -⟩, -⟩ :=
      inFlight_runSteps (turns := before.take k) (rest := before.drop k ++ .engine :: rest) hc h
        (by rw [ha, ← List.append_assoc, List.take_append_drop]) (fun x hx => hports x (List.mem_of_mem_take hx))
        (by omega)
    rw [List.length_take, Nat.min_eq_left hk] at hu
    exact ⟨u, hu, hp, hhash⟩
  · obtain ⟨u, hu, hcu, hflight, hmsg, hau⟩ := inFlight_runSteps hc h ha hports (by omega)
    rw [hcount, Nat.zero_add] at hflight
    have hengine : engineTurn u = true := by simp [engineTurn, hau]
    obtain ⟨t, ht, hp, hhash, hv, hmt⟩ := inFlight_engineStep_fold (s := afterTurn u) hflight
    rw [← step_of_engineTurn hcu hengine] at ht
    refine ⟨t, ?_, hp, hhash, hv, hmt.trans hmsg, by rw [step_agenda ht, hau, List.tail_cons]⟩
    rw [runSteps_add hu, runSteps_succ ht]
    rfl

/-- The turns and rounds that are left to a running block. -/
def stepsLeft (s : State) : Nat := s.agenda.length + (65 - s.t.toNat)

/-- A port turn ends a running block or brings its end nearer: an engine turn by a round, any other turn by itself. -/
theorem step_ends_or_fewer_left {s : State} (hc : consistent s = true) (hp : s.phase = .run)
    (hports : PortTurns s.agenda) :
    ∃ t, step s = .next t ∧ (t.phase = .idle ∨ t.phase = .run ∧ stepsLeft t < stepsLeft s) := by
  obtain ⟨hr, t, ht⟩ := step_next_of_portHead hc fun x hx => hports x (List.mem_of_mem_head? hx)
  refine ⟨t, ht, ?_⟩
  have hagenda : t.agenda.length = s.agenda.length - 1 := by rw [step_agenda ht, List.length_tail]
  cases he : engineTurn s with
  | true =>
    obtain ⟨hle, u, hu, -, -, -, -, hround, hfold⟩ := (engineDispatch (afterTurn s) hc).2 hp
    obtain rfl : u = t := by
      rw [step_of_engineTurn hc he, hu] at ht
      injection ht
    by_cases h63 : s.t.toNat ≤ 63
    · obtain ⟨hrun, htu, -⟩ := hround h63
      rw [afterTurn_t] at htu
      exact .inr ⟨hrun, by simp only [stepsLeft]; omega⟩
    · rw [afterTurn_t] at hle hfold
      exact .inl (hfold (by omega)).1
  | false =>
    have hnonempty : 0 < s.agenda.length := by
      refine List.length_pos_iff.2 fun hnil => ?_
      simp [engineTurn, hnil] at he
    have hfold := foldTurn_of_not_engineTurn he
    obtain ⟨-, -, htt⟩ := engineStateWriters s t ht (commandTurn_run hp 1) (by simp [roundTurn, he]) hfold hr
    refine .inr ⟨?_, by simp only [stepsLeft, htt]; omega⟩
    simp [step_phase ht, hfold, hr, commandTurn_run hp 1, hp]

/-- A running block ends within the steps that are left to it. -/
theorem exists_idle_within_stepsLeft {m : Nat} {s : State} (hc : consistent s = true) (hp : s.phase = .run)
    (hports : PortTurns s.agenda) (hm : stepsLeft s ≤ m) :
    ∃ k t, k ≤ m ∧ runSteps k s = .next t ∧ t.phase = .idle := by
  induction m generalizing s with
  | zero =>
    have hle := consistent_t_le hc
    simp only [stepsLeft] at hm
    omega
  | succ m ih =>
    obtain ⟨t, ht, hidle | ⟨hrun, hfewer⟩⟩ := step_ends_or_fewer_left hc hp hports
    · exact ⟨1, t, by omega, runSteps_succ ht, hidle⟩
    · have hports' : PortTurns t.agenda := by
        rw [step_agenda ht]
        exact fun x hx => hports x (List.mem_of_mem_tail hx)
      obtain ⟨k, u, hk, hu, hidle⟩ := ih (step_consistent ht) hrun hports' (by omega)
      exact ⟨k + 1, u, by omega, by rw [runSteps_succ ht, hu], hidle⟩

/-- Settles O41: at most 65 rounds and the turns of the agenda are left. -/
theorem runningBlockEnds : Obligations.RunningBlockEnds := by
  intro s hc hp hports
  exact exists_idle_within_stepsLeft hc hp hports (by simp only [stepsLeft]; omega)

end Sys2Proof.Machine
end

section
/-! PROOF. The host's procedure (rules R197 and R198), whatever the schedule: a rule for each line of the program, by what it
makes of an assertion on the block and the answers; the program's rules put together, line by line from its end; and the
digest read off the nine answers. -/

namespace Sys2Proof.Machine

/-- The block satisfies rule R36 and holds the given error record. -/
def Recorded (err : Bool) (code : BitVec 4) (s : State) : Prop := consistent s = true ∧ s.err = err ∧ s.errcode = code

/-- The block is idle, with the given error record, and P holds of MSG, H, VALID and the answers. -/
def AtRest (err : Bool) (code : BitVec 4) (P : MsgBlock → HashState → Bool → List Word → Prop) (s : State)
    (answers : List Word) : Prop :=
  Recorded err code s ∧ s.phase = .idle ∧ P s.msg s.hash s.valid answers

/-- The block M, started from H, is in progress or done, nothing is answered yet. -/
def UnderWay (err : Bool) (code : BitVec 4) (H : HashState) (M : MsgBlock) (s : State) (answers : List Word) : Prop :=
  Recorded err code s ∧ answers = [] ∧
    ((∃ n, InFlight H M n s) ∨ (s.phase = .idle ∧ s.hash = compress H M ∧ s.valid = true))

/-- H, VALID and the answers have the given values. -/
def Holds (H : HashState) (valid : Bool) (answers : List Word) (_ : MsgBlock) (H' : HashState) (valid' : Bool)
    (answers' : List Word) : Prop :=
  H' = H ∧ valid' = valid ∧ answers' = answers

/-- An engine move, given to a block that satisfies rule R36, completes and keeps the error record. -/
theorem giveTurn_engine_recorded {err : Bool} {code : BitVec 4} {s : State} (h : Recorded err code s) :
    ∃ t, giveTurn .engine s = .next t ∧ engineStep { s with agenda := [] } = .next t ∧ Recorded err code t := by
  obtain ⟨hc, rfl, rfl⟩ := h
  obtain ⟨t, ht⟩ := engineStep_next (s := { s with agenda := [] }) hc
  have hstep : step { s with agenda := [.engine] } = .next t := (giveTurn_engine hc).trans ht
  exact ⟨t, hstep, ht, step_consistent hstep, step_error_of_engineTurn (s := { s with agenda := [.engine] }) rfl hstep⟩

/-- A line that is the word of an instruction runs it. -/
theorem giveTurn_line {s : State} {T : TxnWord} {i : Instr} (hc : consistent s = true) (hwf : i.wellFormed = true)
    (hT : T = encode i) : giveTurn (.host T) s = exec i { s with agenda := [] } :=
  giveTurn_host hc (hT ▸ decodeOfEncode i hwf)

/-- An idle block rests under engine moves (rule R238). -/
theorem engineKeeps_atRest (err : Bool) (code : BitVec 4) (P : MsgBlock → HashState → Bool → List Word → Prop) :
    EngineKeeps (AtRest err code P) := by
  rintro s answers ⟨hrec, hp, hP⟩
  obtain ⟨t, hgive, hengine, hrec'⟩ := giveTurn_engine_recorded hrec
  rw [engineStep_idle (s := { s with agenda := [] }) hp] at hengine
  injection hengine with e
  subst e
  exact ⟨_, hgive, hrec', hp, hP⟩

/-- A block in progress goes on under engine moves, and rests when it is done (rule R132). -/
theorem engineKeeps_underWay (err : Bool) (code : BitVec 4) (H : HashState) (M : MsgBlock) :
    EngineKeeps (UnderWay err code H M) := by
  rintro s answers ⟨hrec, hans, h⟩
  obtain ⟨t, hgive, hengine, hrec'⟩ := giveTurn_engine_recorded hrec
  refine ⟨t, hgive, hrec', hans, ?_⟩
  rcases h with ⟨n, hflight⟩ | ⟨hp, hdone⟩
  · have hflight' : InFlight H M n { s with agenda := [] } := hflight
    obtain ⟨-, hn, -⟩ := hflight
    by_cases h64 : n < 64
    · obtain ⟨u, hu, hnext, -⟩ := inFlight_engineStep_round hflight' h64
      rw [hengine] at hu
      injection hu with e
      exact .inl ⟨n + 1, e ▸ hnext⟩
    · obtain rfl : n = 64 := by omega
      obtain ⟨u, hu, hp, hhash, hv, -⟩ := inFlight_engineStep_fold hflight'
      rw [hengine] at hu
      injection hu with e
      exact .inr (e ▸ ⟨hp, hhash, hv⟩)
  · rw [engineStep_idle (s := { s with agenda := [] }) hp] at hengine
    injection hengine with e
    subst e
    exact .inr ⟨hp, hdone⟩

/-- A STATUS read of a block that satisfies rule R36. -/
theorem giveTurn_wait {s : State} (hc : consistent s = true) :
    giveTurn (.host HostLine.wait.word) s = .next (respond (statusWord s) { s with agenda := [] }) :=
  giveTurn_line (i := .statusRd) hc rfl rfl

/-- A wait ends exactly where the block is idle (rule R78). -/
theorem seenIdle_statusWord {s : State} : seenIdle (some (statusWord s)) = true ↔ s.phase = .idle := by
  rw [seenIdle, getLsbD_statusWord, if_pos rfl, busy]
  cases s.phase <;> simp

section Lines
variable {err : Bool} {code : BitVec 4} {rest : List HostLine} {Q : State → List Word → Prop}

/-- The wait before anything else: the block comes to rest. -/
theorem ends_wait_first
    (hR : Ends rest (AtRest err code fun _ _ _ answers => answers = []) (consistent · = true) Q) :
    Ends (.wait :: rest) (fun s answers => Recorded err code s ∧ answers = []) (consistent · = true) Q := by
  refine ends_wait ?_ (fun s _ h => h.1.1) ?_ hR
  · rintro s answers ⟨hrec, hans⟩
    obtain ⟨t, hgive, -, hrec'⟩ := giveTurn_engine_recorded hrec
    exact ⟨t, hgive, hrec', hans⟩
  · rintro s answers ⟨hrec, hans⟩
    exact ⟨_, giveTurn_wait hrec.1, ⟨hrec, hans⟩, fun hidle => ⟨hrec, seenIdle_statusWord.1 hidle, hans⟩⟩

/-- The wait after a block is started: it is done when the wait ends. -/
theorem ends_wait_block {H : HashState} {M : MsgBlock}
    (hR : Ends rest (AtRest err code (Holds (compress H M) true [])) (consistent · = true) Q) :
    Ends (.wait :: rest) (UnderWay err code H M) (consistent · = true) Q := by
  refine ends_wait (engineKeeps_underWay err code H M) (fun s _ h => h.1.1) ?_ hR
  rintro s answers ⟨hrec, hans, h⟩
  refine ⟨_, giveTurn_wait hrec.1, ⟨hrec, hans, h⟩, fun hidle => ?_⟩
  have hp : s.phase = .idle := seenIdle_statusWord.1 hidle
  obtain ⟨n, hrun, -⟩ | ⟨-, hhash, hv⟩ := h
  · simp [hp] at hrun
  · exact ⟨hrec, hp, hhash, hv, hans⟩

/-- A read line of a block at rest: the answer is kept, and the block stays as it is. -/
theorem ends_read {P P' : MsgBlock → HashState → Bool → List Word → Prop} {line : AsmLine} {i : Instr}
    (hi : i.isWrite = false) (hwf : i.wellFormed = true) (hline : line.word = encode i)
    (hP : ∀ s answers, AtRest err code P s answers → P' s.msg s.hash s.valid (answers ++ [readValue i s]))
    (hR : Ends rest (AtRest err code P') (consistent · = true) Q) :
    Ends (.txn line :: rest) (AtRest err code P) (consistent · = true) Q := by
  refine ends_txn (engineKeeps_atRest err code P) (fun s _ h => h.1.1) (fun s answers h => ?_) hR
  obtain ⟨hrec, hp, hPs⟩ := h
  have hcleared : AtRest err code P { s with agenda := [] } answers := ⟨hrec, hp, hPs⟩
  exact ⟨_, (giveTurn_line hrec.1 hwf hline).trans (exec_of_read hi _), hrec, hp, hP _ answers hcleared⟩

/-- A write line of a block at rest runs its row's own rule, and answers nothing. -/
theorem giveTurn_write {s : State} {line : AsmLine} {i : Instr} (hc : consistent s = true) (hp : s.phase = .idle)
    (hi : i.isWrite = true) (hwf : i.wellFormed = true) (hline : line.word = encode i) :
    giveTurn (.host line.word) s = .next (writeRule i (respondNothing { s with agenda := [] })) :=
  (giveTurn_line hc hwf hline).trans (exec_write_idle hi hp)

/-- A MSG write of a block at rest. -/
theorem ends_msgWrite {P P' : MsgBlock → HashState → Bool → List Word → Prop} {i : Fin 16} {d : Word}
    (hP : ∀ m H v answers, P m H v answers → P' (m.set i d) H v answers)
    (hR : Ends rest (AtRest err code P') (consistent · = true) Q) :
    Ends (.txn (.wr (.msg i) d) :: rest) (AtRest err code P) (consistent · = true) Q := by
  refine ends_txn (engineKeeps_atRest err code P) (fun s _ h => h.1.1) ?_ hR
  rintro s answers ⟨hrec, hp, hPs⟩
  refine ⟨_, giveTurn_write (i := .msgWr i d) hrec.1 hp rfl rfl rfl, hrec, hp, ?_⟩
  rw [show (writeRule (.msgWr i d) (respondNothing { s with agenda := [] })).rdata = none from rfl, Option.toList_none,
    List.append_nil]
  exact hP _ _ _ _ hPs

/-- A command of a block at rest, with CLRERR clear, keeps the error record, and answers nothing. -/
theorem giveTurn_command {s : State} {d : Word} (hrec : Recorded err code s) (hp : s.phase = .idle)
    (hd : ctrlReserved d = 0#29) (hclr : d.getLsbD 2 = false) :
    let t := command d (respondNothing { s with agenda := [] })
    giveTurn (.host (AsmLine.wr .ctrl d).word) s = .next t ∧ Recorded err code t ∧ t.rdata = none := by
  obtain ⟨hc, rfl, rfl⟩ := hrec
  have hgive := giveTurn_write (line := .wr .ctrl d) (i := .ctrlWr d) hc hp rfl rfl rfl
  obtain ⟨-, hrdata, -⟩ := command_frame d (respondNothing { s with agenda := [] })
  obtain ⟨herr, hcode⟩ := command_error hd (respondNothing { s with agenda := [] })
  rw [hclr] at herr hcode
  exact ⟨hgive, ⟨step_consistent hgive, herr, hcode⟩, hrdata⟩

/-- INIT alone (rule R158). -/
theorem ends_init (hR : Ends rest (AtRest err code (Holds IV false [])) (consistent · = true) Q) :
    Ends (Pseudo.init.lines ++ rest) (AtRest err code fun _ _ _ answers => answers = []) (consistent · = true) Q := by
  have hd : ctrlReserved 1#32 = 0#29 := by decide
  refine ends_txn (engineKeeps_atRest err code _) (fun s _ h => h.1.1) ?_ hR
  rintro s answers ⟨hrec, hp, rfl⟩
  obtain ⟨hgive, hrec', hrdata⟩ := giveTurn_command hrec hp hd (by decide)
  obtain ⟨hphase, -⟩ := command_without_next hd (by decide) (respondNothing { s with agenda := [] })
  refine ⟨_, hgive, hrec', hphase.trans hp, command_hash hd _, command_valid hd _, ?_⟩
  rw [hrdata, Option.toList_none, List.append_nil]

/-- A command with NEXT set and CLRERR clear starts the block in MSG, from H or from IV (rules R156 and R159). -/
theorem ends_start {H : HashState} {M : MsgBlock} {P : MsgBlock → HashState → Bool → List Word → Prop} {d : Word}
    (hd : ctrlReserved d = 0#29) (hn : d.getLsbD 1 = true) (hclr : d.getLsbD 2 = false)
    (hP : ∀ m H' v answers, P m H' v answers → m = M ∧ (if d.getLsbD 0 then IV else H') = H ∧ answers = [])
    (hR : Ends rest (UnderWay err code H M) (consistent · = true) Q) :
    Ends (.txn (.wr .ctrl d) :: rest) (AtRest err code P) (consistent · = true) Q := by
  refine ends_txn (engineKeeps_atRest err code P) (fun s _ h => h.1.1) ?_ hR
  rintro s answers ⟨hrec, hp, hPs⟩
  obtain ⟨rfl, rfl, rfl⟩ := hP _ _ _ _ hPs
  obtain ⟨hgive, hrec', hrdata⟩ := giveTurn_command hrec hp hd hclr
  refine ⟨_, hgive, hrec', ?_, .inl ⟨0, command_inFlight hd hn (respondNothing { s with agenda := [] })⟩⟩
  rw [hrdata, Option.toList_none, List.append_nil]

/-- The writes of the words of M at the given locations: words written before and these make MSG equal to M. -/
theorem ends_loads {M : MsgBlock} {P : HashState → Bool → List Word → Prop}
    (hR : Ends rest (AtRest err code fun m H v answers => m = M ∧ P H v answers) (consistent · = true) Q)
    (todo : List (Fin 16)) :
    Ends (todo.map (fun i => .txn (.wr (.msg i) M[i])) ++ rest)
      (AtRest err code fun m H v answers => (∀ j : Fin 16, j ∉ todo → m[j] = M[j]) ∧ P H v answers)
      (consistent · = true) Q := by
  induction todo with
  | nil =>
    refine fun s answers ⟨hrec, hp, hmsg, hP⟩ => hR s answers ⟨hrec, hp, Vector.ext fun j hj => ?_, hP⟩
    exact hmsg ⟨j, hj⟩ List.not_mem_nil
  | cons i todo ih =>
    refine ends_msgWrite (fun m H v answers ⟨hmsg, hP⟩ => ⟨fun j hj => ?_, hP⟩) ih
    by_cases hji : j = i
    · subst hji; simp
    · have hne : i.val ≠ j.val := fun e => hji (Fin.ext e.symm)
      simpa [Vector.getElem_set, hne] using hmsg j (by simp [hji, hj])

/-- The load of a block (rule R78). -/
theorem ends_load {M : MsgBlock} {P : HashState → Bool → List Word → Prop}
    (hR : Ends rest (AtRest err code fun m H v answers => m = M ∧ P H v answers) (consistent · = true) Q) :
    Ends ((Pseudo.load M).lines ++ rest) (AtRest err code fun _ H v answers => P H v answers) (consistent · = true) Q := by
  have hlines : (Pseudo.load M).lines = (List.finRange 16).map fun i => .txn (.wr (.msg i) M[i]) := by
    rw [Pseudo.lines, Pseudo.expand, List.ofFn_eq_map, List.map_map]; rfl
  rw [hlines]
  exact fun s answers ⟨hrec, hp, hP⟩ => ends_loads hR _ s answers
    ⟨hrec, hp, fun j hj => absurd (List.mem_finRange j) hj, hP⟩

/-- One block started by NEXT (rule R197, step 3). -/
theorem ends_block {H : HashState} {v : Bool} {M : MsgBlock}
    (hR : Ends rest (AtRest err code (Holds (compress H M) true [])) (consistent · = true) Q) :
    Ends (blockLines .next M ++ rest) (AtRest err code (Holds H v [])) (consistent · = true) Q := by
  rw [blockLines, List.append_assoc, List.append_assoc]
  refine ends_load (P := fun H' v' answers => H' = H ∧ v' = v ∧ answers = []) ?_
  refine ends_start (d := 2#32) (by decide) (by decide) (by decide) ?_ (ends_wait_block hR)
  rintro m H' v' answers ⟨rfl, rfl, -, rfl⟩
  exact ⟨rfl, rfl, rfl⟩

/-- The first block started by INIT and NEXT in one write. -/
theorem ends_block_initNext {M : MsgBlock}
    (hR : Ends rest (AtRest err code (Holds (compress IV M) true [])) (consistent · = true) Q) :
    Ends (blockLines .initNext M ++ rest) (AtRest err code fun _ _ _ answers => answers = []) (consistent · = true) Q := by
  rw [blockLines, List.append_assoc, List.append_assoc]
  refine ends_load (P := fun _ _ answers => answers = []) ?_
  refine ends_start (d := 3#32) (by decide) (by decide) (by decide) ?_ (ends_wait_block hR)
  rintro m H' v' answers ⟨rfl, rfl⟩
  exact ⟨rfl, rfl, rfl⟩

theorem compressAll_cons (H : HashState) (M : MsgBlock) (blocks : List MsgBlock) :
    compressAll H (M :: blocks) = compressAll (compress H M) blocks :=
  List.foldl_cons ..

/-- The blocks one after another (rule R198). -/
theorem ends_blocks {blocks : List MsgBlock} {H : HashState} {v : Bool}
    (hR : Ends rest (AtRest err code (Holds (compressAll H blocks) (v || !blocks.isEmpty) [])) (consistent · = true) Q) :
    Ends (blocks.flatMap (blockLines .next) ++ rest) (AtRest err code (Holds H v [])) (consistent · = true) Q := by
  induction blocks generalizing H v with
  | nil => simpa [compressAll] using hR
  | cons M blocks ih =>
    rw [List.flatMap_cons, List.append_assoc]
    rw [compressAll_cons, List.isEmpty_cons, Bool.not_false, Bool.or_true, ← Bool.true_or (!blocks.isEmpty)] at hR
    exact ends_block (ih hR)

/-- INIT and the blocks, INIT alone or merged into the first NEXT (rule R197, steps 2 and 3). -/
theorem ends_compressLines {merge : Bool} {blocks : List MsgBlock}
    (hR : Ends rest (AtRest err code (Holds (compressAll IV blocks) (!blocks.isEmpty) [])) (consistent · = true) Q) :
    Ends (compressLines merge blocks ++ rest) (AtRest err code fun _ _ _ answers => answers = []) (consistent · = true)
      Q := by
  unfold compressLines
  split
  next M blocks =>
    rw [compressAll_cons, List.isEmpty_cons, Bool.not_false, ← Bool.true_or (!blocks.isEmpty)] at hR
    rw [List.append_assoc]
    exact ends_block_initNext (ends_blocks hR)
  next =>
    rw [List.append_assoc]
    exact ends_init (ends_blocks hR)

/-- HASH reads of a block at rest, at the given locations. -/
theorem ends_hashReads {H : HashState} {v : Bool} {todo : List (Fin 8)} {answers : List Word}
    (hR : Ends rest (AtRest err code (Holds H v (answers ++ todo.map (H[·])))) (consistent · = true) Q) :
    Ends (todo.map (fun i => .txn (.rd (.hash i))) ++ rest) (AtRest err code (Holds H v answers)) (consistent · = true)
      Q := by
  induction todo generalizing answers with
  | nil => simpa using hR
  | cons i todo ih =>
    refine ends_read (i := .hashRd i) (P' := Holds H v (answers ++ [H[i]])) rfl rfl rfl ?_ (ih (by simpa using hR))
    rintro s answers' ⟨-, -, hhash, hv, rfl⟩
    exact ⟨hhash, hv, by rw [readValue, hhash]⟩

/-- The answers of the program: the words of H, and a STATUS word whose VALID and ERR are the given ones. -/
def Answered (H : HashState) (v err : Bool) (answers : List Word) : Prop :=
  ∃ status : Word, status.getLsbD 1 = v ∧ status.getLsbD 2 = err ∧ answers = (List.finRange 8).map (H[·]) ++ [status]

/-- The eight HASH reads and the STATUS read (rule R197, steps 4 and 5). -/
theorem ends_readout {H : HashState} {v : Bool} :
    Ends (Pseudo.rdhash.lines ++ Pseudo.poll.lines) (AtRest err code (Holds H v [])) (consistent · = true)
      (AtRest err code fun _ H' v' answers => H' = H ∧ v' = v ∧ Answered H v err answers) := by
  have hlines : Pseudo.rdhash.lines = (List.finRange 8).map fun i => .txn (.rd (.hash i)) := by
    rw [Pseudo.lines, Pseudo.expand, List.ofFn_eq_map, List.map_map]; rfl
  rw [hlines]
  refine ends_hashReads (ends_read (i := .statusRd) rfl rfl rfl ?_
    (ends_nil (engineKeeps_atRest err code _) (fun s _ h => h.1.1) fun _ _ => id))
  rintro s answers ⟨⟨-, herr, -⟩, -, hhash, hv, rfl⟩
  refine ⟨hhash, hv, statusWord s, ?_, ?_, rfl⟩
  · exact (getLsbD_statusWord s 1).trans hv
  · exact (getLsbD_statusWord s 2).trans herr

/-- The whole program (rule R197), under every schedule. -/
theorem ends_digestProgram (merge : Bool) (blocks : List MsgBlock) :
    Ends (digestProgram merge blocks) (fun s answers => Recorded err code s ∧ answers = []) (consistent · = true)
      (AtRest err code fun _ H v answers =>
        H = compressAll IV blocks ∧ v = !blocks.isEmpty ∧
          Answered (compressAll IV blocks) (!blocks.isEmpty) err answers) := by
  rw [digestProgram, List.append_assoc, List.append_assoc]
  exact ends_wait_first (ends_compressLines ends_readout)

end Lines

/-- A hash value is its eight words. -/
theorem words_eq_self (H : HashState) : #v[H[0], H[1], H[2], H[3], H[4], H[5], H[6], H[7]] = H := by
  refine Vector.ext fun i hi => ?_
  interval_cases i <;> rfl

/-- The digest of the nine answers: only where VALID is 1 and ERR is 0 (rule R197, steps 5 and 6). -/
theorem digestOfAnswers_of_answered {H : HashState} {v err : Bool} {answers : List Word}
    (h : Answered H v err answers) : digestOfAnswers answers = if !err && v then some (digestBytes H) else none := by
  obtain ⟨status, rfl, rfl, rfl⟩ := h
  rw [← words_eq_self H]
  rfl

end Sys2Proof.Machine
end

section
/-! PROOF. The host's procedure comes to its end (rules R21 and R197): every line issued and every engine turn of a running
block takes from what is left to do, and in each phase one of the two agents is the one whose move does. -/

namespace Sys2Proof.Machine

/-- The engine turns left to a running block. -/
def turnsLeft (s : State) : Nat := if s.phase = .run then 65 - s.t.toNat else 0

/-- What is left to do: a line counts for more than the engine turns of the block it may start. -/
def Session.left (x : Session) : Nat := if x.program = [] then 0 else 66 * x.program.length + turnsLeft x.block

/-- The agent whose move takes from what is left: the engine's while a block runs, else the host's. -/
def Session.due (x : Session) : Mover :=
  match x.block.phase with
  | .run => .engine
  | .idle => .host

theorem left_nil (s : State) (answers : List Word) : (⟨s, [], answers⟩ : Session).left = 0 := rfl

theorem left_cons (s : State) (line : HostLine) (rest : List HostLine) (answers : List Word) :
    (⟨s, line :: rest, answers⟩ : Session).left = 66 * (rest.length + 1) + turnsLeft s := rfl

theorem turnsLeft_le (s : State) : turnsLeft s ≤ 65 := by
  unfold turnsLeft; split <;> omega

theorem turnsLeft_idle {s : State} (hp : s.phase = .idle) : turnsLeft s = 0 := by simp [turnsLeft, hp]

theorem due_idle {x : Session} (hp : x.block.phase = .idle) : x.due = .host := by simp [Session.due, hp]

theorem due_run {x : Session} (hp : x.block.phase = .run) : x.due = .engine := by simp [Session.due, hp]

/-- A line done takes at least one from what is left. -/
theorem left_lt_of_line_done (s t : State) (line : HostLine) (rest : List HostLine) (answers answers' : List Word) :
    (⟨t, rest, answers'⟩ : Session).left < (⟨s, line :: rest, answers⟩ : Session).left := by
  have ht := turnsLeft_le t
  rw [left_cons]
  cases rest with
  | nil => rw [left_nil]; omega
  | cons next rest => rw [left_cons, List.length_cons]; omega

/-- An engine turn of a running block takes one from the turns left to it (rule R128). -/
theorem turnsLeft_engineStep {s t : State} (hc : consistent s = true) (hp : s.phase = .run)
    (h : engineStep s = .next t) : turnsLeft t + 1 = turnsLeft s := by
  obtain ⟨hle, u, hu, -, -, -, -, hround, hfold⟩ := (engineDispatch s hc).2 hp
  obtain rfl : t = u := by
    rw [h] at hu
    injection hu
  by_cases h63 : s.t.toNat ≤ 63
  · obtain ⟨hrun, htu, -⟩ := hround h63
    rw [turnsLeft, turnsLeft, if_pos hrun, if_pos hp, htu]
    omega
  · have h64 : s.t.toNat = 64 := by omega
    rw [turnsLeft_idle (hfold h64).1, turnsLeft, if_pos hp, h64]

/-- A move takes from what is left, or leaves it with the same agent due and is another agent's, or there is nothing
left. -/
def Progress (m : Mover) (x y : Session) : Prop :=
  y.left < x.left ∨ (y.left = x.left ∧ y.due = x.due ∧ m ≠ x.due) ∨ (x.left = 0 ∧ y.left = 0)

/-- An engine move takes from what is left where the block runs, and passes where it is idle. -/
theorem move_engine_progress {x : Session} (hc : consistent x.block = true) :
    ∃ y, x.move .engine = .next y ∧ consistent y.block = true ∧ Progress .engine x y := by
  obtain ⟨s, program, answers⟩ := x
  have hc' : consistent { s with agenda := [] } = true := hc
  obtain ⟨t, ht⟩ := engineStep_next hc'
  have hgive := (giveTurn_engine hc).trans ht
  refine ⟨_, move_engine hgive, step_consistent hgive, ?_⟩
  cases program with
  | nil => exact .inr (.inr ⟨rfl, rfl⟩)
  | cons line rest =>
    cases hp : s.phase with
    | idle =>
      rw [engineStep_idle (s := { s with agenda := [] }) hp] at ht
      injection ht with e
      subst e
      refine .inr (.inl ⟨rfl, rfl, ?_⟩)
      rw [due_idle hp]
      decide
    | run =>
      have hleft : turnsLeft t + 1 = turnsLeft s := turnsLeft_engineStep (s := { s with agenda := [] }) hc' hp ht
      refine .inl ?_
      rw [left_cons, left_cons]
      omega

/-- A host move takes a line from what is left, but for a wait while the block runs, which changes nothing. -/
theorem move_host_progress {x : Session} (hc : consistent x.block = true) :
    ∃ y, x.move .host = .next y ∧ consistent y.block = true ∧ Progress .host x y := by
  obtain ⟨s, program, answers⟩ := x
  cases program with
  | nil => exact ⟨_, move_done rfl, hc, .inr (.inr ⟨rfl, rfl⟩)⟩
  | cons line rest =>
    cases line with
    | txn line =>
      obtain ⟨t, ht⟩ := exec_next (instrAt line.word.we line.word.addr line.word.wdata) { s with agenda := [] }
      have hgive := (giveTurn_host hc (decode_eq_instrAt line.word)).trans ht
      exact ⟨_, move_host (line := .txn line) hgive, step_consistent hgive, .inl (left_lt_of_line_done ..)⟩
    | wait =>
      refine ⟨_, move_host (giveTurn_wait hc), hc, ?_⟩
      rw [HostLine.done]
      split
      case isTrue => exact .inl (left_lt_of_line_done ..)
      case isFalse hbusy =>
        have hp : s.phase = .run := by
          cases hp : s.phase with
          | run => rfl
          | idle => exact absurd (seenIdle_statusWord.2 hp) hbusy
        refine .inr (.inl ⟨rfl, rfl, ?_⟩)
        rw [due_run hp]
        decide

theorem move_progress (m : Mover) {x : Session} (hc : consistent x.block = true) :
    ∃ y, x.move m = .next y ∧ consistent y.block = true ∧ Progress m x y := by
  cases m with
  | host => exact move_host_progress hc
  | engine => exact move_engine_progress hc

/-- Moves never add to what is left, and take from it where the due agent is among the movers. -/
theorem run_left_le (moves : List Mover) {x : Session} (hc : consistent x.block = true) :
    ∃ y, Session.run moves x = .next y ∧ consistent y.block = true ∧ y.left ≤ x.left ∧
      (x.due ∈ moves → y.left ≤ x.left - 1) := by
  induction moves generalizing x with
  | nil => exact ⟨x, rfl, hc, Nat.le_refl _, fun h => absurd h List.not_mem_nil⟩
  | cons m moves ih =>
    obtain ⟨y, hmove, hcy, hprog⟩ := move_progress m hc
    obtain ⟨z, hrun, hcz, hle, hdue⟩ := ih hcy
    refine ⟨z, by rw [run_cons hmove, hrun], hcz, ?_⟩
    rcases hprog with hlt | ⟨hleft, hsame, hnot⟩ | ⟨hx, hy⟩
    · exact ⟨by omega, fun _ => by omega⟩
    · refine ⟨by omega, fun hmem => ?_⟩
      have hlater : y.due ∈ moves := hsame ▸ (List.mem_cons.1 hmem).resolve_left (Ne.symm hnot)
      have hz := hdue hlater
      omega
    · exact ⟨by omega, fun _ => by omega⟩

/-- Every round in which both agents move takes from what is left. -/
theorem run_rounds_left_le (rounds : List (List Mover)) (hboth : ∀ r ∈ rounds, .host ∈ r ∧ .engine ∈ r) {x : Session}
    (hc : consistent x.block = true) :
    ∃ y, Session.run rounds.flatten x = .next y ∧ y.left ≤ x.left - rounds.length := by
  induction rounds generalizing x with
  | nil => exact ⟨x, rfl, Nat.le_refl _⟩
  | cons r rounds ih =>
    obtain ⟨⟨hhost, hengine⟩, hboth⟩ := List.forall_mem_cons.1 hboth
    have hdue : x.due ∈ r := by
      cases h : x.due with
      | host => exact hhost
      | engine => exact hengine
    obtain ⟨y, hrun, hcy, -, hlt⟩ := run_left_le r hc
    obtain ⟨z, hrest, hle⟩ := ih hboth hcy
    have hy := hlt hdue
    refine ⟨z, by rw [List.flatten_cons, run_append hrun, hrest], ?_⟩
    rw [List.length_cons]
    omega

/-- Where nothing is left the program is done. -/
theorem program_eq_nil_of_left_eq_zero {x : Session} (h : x.left = 0) : x.program = [] := by
  by_contra hne
  have hpos := List.length_pos_iff.2 hne
  rw [Session.left, if_neg hne] at h
  omega

/-- Settles O42: `ends_digestProgram` under every schedule, the digest by the nine answers, and as many rounds as there is
left to do at the start. -/
theorem hostProcedureGivesDigest : Obligations.HostProcedureGivesDigest := by
  intro s merge blocks hc
  refine ⟨fun schedule => ?_, (Session.start s (digestProgram merge blocks)).left, fun rounds hn hboth => ?_⟩
  · obtain ⟨x, hrun, hcx, hend⟩ := ends_digestProgram merge blocks s [] ⟨⟨hc, rfl, rfl⟩, rfl⟩ schedule
    refine ⟨x, hrun, hcx, fun hdone => ?_⟩
    obtain ⟨⟨-, herr, hcode⟩, hp, hhash, hv, hanswered⟩ := hend hdone
    have hdigest := digestOfAnswers_of_answered hanswered
    refine ⟨hp, hhash, herr, hcode, fun he hblocks => ?_, fun hno => ?_⟩
    · have hvalid : (!blocks.isEmpty) = true := by simpa using hblocks
      rw [he, hvalid] at hdigest
      refine ⟨?_, hdigest, fun input hinput => ?_⟩
      · simp [digestReady, busy, hp, herr, he, hv, hvalid]
      · rw [hdigest, digest, hinput]; rfl
    · rw [hdigest]
      rcases hno with he | rfl
      · simp [he]
      · simp
  · obtain ⟨y, hrun, hle⟩ := run_rounds_left_le rounds hboth (x := Session.start s (digestProgram merge blocks)) hc
    exact ⟨y, hrun, program_eq_nil_of_left_eq_zero (by omega)⟩

end Sys2Proof.Machine
end

section
/-! PROOF. The host's framing and text (rules R191 to R196 and R199): the length field byte by byte and word by word, the
frame cut where a block ends, and the digits of the text. -/

namespace Sys2Proof.Machine

/-- Settles O53: floor arithmetic on the formula, and its boundary values evaluated. -/
theorem blockCountIsCeiling : Obligations.BlockCountIsCeiling := by
  refine ⟨fun L => ⟨length_add_nine_le_blocks L, ?_, rfl, ?_, ?_⟩, by decide⟩ <;> simp only [blockCount] <;> omega

/-- A field of a number that fits in 64 bits. -/
theorem extractLsb'_ofNat_64 {n : Nat} (hn : n < 2 ^ 64) (start len : Nat) :
    (BitVec.ofNat 64 n).extractLsb' start len = BitVec.ofNat len (n / 2 ^ start) := by
  rw [BitVec.extractLsb', BitVec.toNat_ofNat, Nat.mod_eq_of_lt hn, Nat.shiftRight_eq_div_pow]

/-- Byte j of the last eight of a framed message is byte j of the length field (rule R192). -/
theorem getElem?_frame_length (input : List Byte) {j : Nat} (hj : j < 8) :
    (frame input)[64 * blockCount input.length - 8 + j]? =
      some ((BitVec.ofNat 64 (input.length * 8)).extractLsb' (56 - 8 * j) 8) := by
  rw [← List.getElem?_drop, drop_frame, lengthField, List.getElem?_map, List.getElem?_range hj, Option.map_some]

/-- The same byte, counted from the start of the final block. -/
theorem byteAt_frame_length (input : List Byte) {j : Nat} (hj : j < 8) :
    byteAt (frame input) (64 * (blockCount input.length - 1) + 56 + j) =
      (BitVec.ofNat 64 (input.length * 8)).extractLsb' (56 - 8 * j) 8 := by
  have hfit := length_add_nine_le_blocks input.length
  have hpos : 64 * (blockCount input.length - 1) + 56 + j = 64 * blockCount input.length - 8 + j := by omega
  rw [byteAt, List.getD_eq_getElem?_getD, hpos, getElem?_frame_length input hj, Option.getD_some]

/-- Four adjacent bytes of a 64-bit number, packed, are the 32 bits they come from. -/
theorem packWord_extractLsb'_64 (x : BitVec 64) (start : Nat) :
    packWord (x.extractLsb' (start + 24) 8) (x.extractLsb' (start + 16) 8) (x.extractLsb' (start + 8) 8)
      (x.extractLsb' start 8) = x.extractLsb' start 32 := by
  rw [packWord, BitVec.extractLsb'_append_extractLsb'_eq_extractLsb' (show start + 24 = start + 16 + 8 from rfl),
    BitVec.extractLsb'_append_extractLsb'_eq_extractLsb' (show start + 16 = start + 8 + 8 from rfl),
    BitVec.extractLsb'_append_extractLsb'_eq_extractLsb' rfl]

/-- The last two words of the final block are the halves of the length field (rule R192). -/
theorem packBlock_frame_length (input : List Byte) :
    (packBlock (frame input) (blockCount input.length - 1))[14] =
      (BitVec.ofNat 64 (input.length * 8)).extractLsb' 32 32 ∧
    (packBlock (frame input) (blockCount input.length - 1))[15] =
      (BitVec.ofNat 64 (input.length * 8)).extractLsb' 0 32 := by
  have hbyte := fun (j : Nat) (hj : j < 8) => byteAt_frame_length input hj
  constructor
  · refine (getElem_packBlock _ _ 14).trans ?_
    rw [← packWord_extractLsb'_64]
    exact congr (congr (congr (congrArg packWord (hbyte 0 (by decide))) (hbyte 1 (by decide))) (hbyte 2 (by decide)))
      (hbyte 3 (by decide))
  · refine (getElem_packBlock _ _ 15).trans ?_
    rw [← packWord_extractLsb'_64]
    exact congr (congr (congr (congrArg packWord (hbyte 4 (by decide))) (hbyte 5 (by decide))) (hbyte 6 (by decide)))
      (hbyte 7 (by decide))

/-- Settles O55: below the limit the length in bits fits in the length field, whose bytes and halves are its digits; from
the limit on there is no frame. -/
theorem lengthFieldWords : Obligations.LengthFieldWords := by
  refine ⟨fun input hlen => ?_, fun input hlen => ?_⟩
  · have hfits : input.length * 8 < 2 ^ 64 := by omega
    obtain ⟨hupper, hlower⟩ := packBlock_frame_length input
    rw [extractLsb'_ofNat_64 hfits] at hupper hlower
    rw [Nat.pow_zero, Nat.div_one] at hlower
    refine ⟨if_pos hlen, fun j hj => ?_, hupper, hlower⟩
    rw [getElem?_frame_length input hj, extractLsb'_ofNat_64 hfits]
  · have hnone : frameInput input = none := if_neg (Nat.not_lt.2 hlen)
    have hblocks : blocksOf input = none := by rw [blocksOf, hnone, Option.map_none]
    exact ⟨hnone, hblocks, by rw [digest, hblocks, Option.map_none]⟩

/-- Settles O56: the one block is evaluated. -/
theorem emptyInputBlock : Obligations.EmptyInputBlock := by
  unfold Obligations.EmptyInputBlock
  decide

/-- A frame cut inside its zero bytes. -/
theorem frame_eq_append {input : List Byte} {m n : Nat} (h : zeroCount input.length = m + n) :
    frame input =
      (input ++ 0x80#8 :: List.replicate m 0#8) ++ (List.replicate n 0#8 ++ lengthField input.length) := by
  rw [frame_eq_append_cons, h, List.replicate_add, List.append_assoc (List.replicate m _), List.append_assoc input,
    List.cons_append]

/-- Settles O57: in the spill case the cut lies in the zero bytes, 56 of them before the length field; for a whole number
of blocks it lies at the terminator. -/
theorem spillBlock : Obligations.SpillBlock := by
  refine fun input => ⟨fun hspill => ?_, fun hwhole hpos => ?_⟩
  · have hcount : blockCount input.length = input.length / 64 + 2 := by simp only [blockCount]; omega
    have hzeros : zeroCount input.length = (63 - input.length % 64) + 56 := by simp only [zeroCount, hcount]; omega
    have hlen : (input ++ 0x80#8 :: List.replicate (63 - input.length % 64) 0#8).length =
        64 * (input.length / 64 + 1) := by
      rw [List.length_append, List.length_cons, List.length_replicate]
      omega
    rw [frame_eq_append hzeros]
    exact ⟨hcount, List.take_left' hlen, List.drop_left' hlen⟩
  · have hcount : blockCount input.length = input.length / 64 + 1 := by simp only [blockCount]; omega
    have hzeros : zeroCount input.length = 55 := by simp only [zeroCount, hcount]; omega
    refine ⟨hcount, ?_⟩
    rw [frame_eq_append_cons, hzeros, List.drop_left' (by omega), List.cons_append]

@[simp] theorem length_hexText (bytes : List Byte) : (hexText bytes).length = 2 * bytes.length := by
  rw [hexText, List.length_flatMap]
  simp [Nat.mul_comm]

/-- The two digits of byte k, most significant nibble first (rule R199). -/
theorem getElem?_hexText (bytes : List Byte) (k : Nat) :
    (hexText bytes)[2 * k]? = bytes[k]?.map (fun b => hexDigit (b.extractLsb' 4 4)) ∧
    (hexText bytes)[2 * k + 1]? = bytes[k]?.map (fun b => hexDigit (b.extractLsb' 0 4)) := by
  induction bytes generalizing k with
  | nil => simp [hexText]
  | cons b bytes ih =>
    cases k with
    | zero => exact ⟨rfl, rfl⟩
    | succ k => exact ih k

/-- The nibbles of a byte as digits to base 16. -/
theorem nibbles_eq (b : Byte) :
    b.extractLsb' 4 4 = BitVec.ofNat 4 (b.toNat / 16) ∧ b.extractLsb' 0 4 = BitVec.ofNat 4 (b.toNat % 16) := by
  refine ⟨?_, BitVec.eq_of_toNat_eq ?_⟩
  · rw [BitVec.extractLsb', Nat.shiftRight_eq_div_pow]
  · rw [BitVec.extractLsb', Nat.shiftRight_zero, BitVec.toNat_ofNat, BitVec.toNat_ofNat, Nat.mod_mod]

/-- Settles O60: 32 bytes of two digits each. -/
theorem digestText : Obligations.DigestText := by
  refine fun H => ⟨by rw [length_hexText, length_digestBytes], by decide, fun k b hk => ?_⟩
  obtain ⟨hhigh, hlow⟩ := getElem?_hexText (digestBytes H) k
  obtain ⟨high, low⟩ := nibbles_eq b
  rw [hhigh, hlow, hk, Option.map_some, Option.map_some, high, low]
  exact ⟨rfl, rfl⟩

end Sys2Proof.Machine
end
